-- ==== Sys2Proof/Word.lean ====
section
/-! DEFINITION. The two widths of the machine (00_scope.md R9): 32-bit registers and 8-bit memory cells. -/
namespace Sys2Proof

/-- `u32` of 00_scope.md R11: registers, `eip`, `eflags`, addresses held in registers. Its `+` is `+₃₂`. -/
abbrev Word := BitVec 32

/-- `u8` of 00_scope.md R11: a memory cell, an opcode byte, an encoded displacement. -/
abbrev Byte := BitVec 8

end Sys2Proof
end

