-- ==== Sys2Proof/Config.lean ====
section
/-! DEFINITION. The configuration record `Cfg` of 00_scope.md R8: fixed for the lifetime of a machine instance. -/
namespace Sys2Proof

/-- `IMM32_BYTES` of 00_scope.md R8, left open by the source (90_conflicts.md C1, D3): how many bytes of a
32-bit immediate are assembled. -/
inductive Imm32Bytes where
  | three
  | four
  deriving DecidableEq, Repr

/-- `Cfg` of 00_scope.md R8. Its range condition `memory_size ≤ 2^32` is `Cfg.wellFormed`. -/
structure Cfg where
  /-- `memory_size`: the capacity of memory in bytes (D8). -/
  memorySize : Nat
  /-- `entry_point`: the reset value of `eip` (D9). -/
  entryPoint : Word
  /-- `initial_stack_pointer`: the reset value of ESP (D10). -/
  initialStackPointer : Word
  /-- `load_address`: where the image's first byte goes (D11). -/
  loadAddress : Nat
  /-- `load_limit`: how many bytes of the image are loaded at most; `none` is the whole image (D11). -/
  loadLimit : Option Nat
  /-- `IMM32_BYTES` (D3). -/
  imm32Bytes : Imm32Bytes
  deriving DecidableEq, Repr

end Sys2Proof
end

