-- ==== Sys2Proof/Syntax.lean ====
section
/-! DEFINITION. Syntax: registers, handler identifiers and the nine instructions of spec/opcode_table.json. -/
namespace Sys2Proof

/-- The closed enumeration of general registers in declaration order (10_state.md R30, R31): index 0 to 7.
The names are general knowledge (G1); the order of 1 to 6 is the spec's decision D15. -/
inductive Reg where
  | eax | ecx | edx | ebx | esp | ebp | esi | edi
  deriving DecidableEq, Repr

/-- The closed set of handlers (10_state.md R48). -/
inductive HandlerId where
  | movR32Imm32
  | jmpRel8
  deriving DecidableEq, Repr

/-- One constructor per row of the opcode table. The operand of a move is the whole encoded field `imm[31:0]` of
format OI (30_encoding.md R101), all four bytes of it, whatever `IMM32_BYTES` is: how many of them are assembled
is part of the meaning (R106). The operand of the jump is the encoded byte `disp8` of format D8 (R102). -/
inductive Instr where
  | movEax (imm : Word)
  | movEcx (imm : Word)
  | movEdx (imm : Word)
  | movEbx (imm : Word)
  | movEsp (imm : Word)
  | movEbp (imm : Word)
  | movEsi (imm : Word)
  | movEdi (imm : Word)
  | jmpRel8 (disp : Byte)
  deriving DecidableEq, Repr

end Sys2Proof
end

