-- ==== Sys2Proof/WellFormed.lean ====
section
/-! DEFINITION. Well-formedness checks. The types of `Instr` already hold every operand to its encoded width
(a 32-bit field, an 8-bit field; the register is in the constructor), so no instruction term is ill-formed; the one
check with something to refuse is the configuration's. -/
namespace Sys2Proof

/-- Every instruction term has an encoding (30_encoding.md R101, R102): the fields are exactly as wide as the
encoding's, so nothing is left to check. Stated per constructor, so that a new constructor cannot slip past. -/
def Instr.wellFormed : Instr → Bool
  | .movEax _ => true
  | .movEcx _ => true
  | .movEdx _ => true
  | .movEbx _ => true
  | .movEsp _ => true
  | .movEbp _ => true
  | .movEsi _ => true
  | .movEdi _ => true
  | .jmpRel8 _ => true

/-- The range of `memory_size` (00_scope.md R8): `0 ≤ memory_size ≤ 2^32`. -/
def Cfg.wellFormed (cfg : Cfg) : Bool := decide (cfg.memorySize ≤ 2 ^ 32)

end Sys2Proof
end

