-- ==== Sys2Proof/Decode.lean ====
section
/-! DEFINITION. The dispatch table, the instruction decoder, total on byte lists, and the encoder
(30_encoding.md R100 to R110; 10_state.md R47, R48). -/
namespace Sys2Proof

/-- The dispatch table, a constant function (10_state.md R47) with the contents of 30_encoding.md R104. -/
def lookup (b : Byte) : Option HandlerId :=
  if 0xB8#8 ≤ b ∧ b ≤ 0xBF#8 then some .movR32Imm32
  else if b = 0xEB#8 then some .jmpRel8
  else none

/-- Length decoding from the opcode byte alone (30_encoding.md R103). -/
def encodedLength (b : Byte) : Option Nat :=
  match lookup b with
  | some .movR32Imm32 => some 5
  | some .jmpRel8 => some 2
  | none => none

/-- The register at an index of the enumeration (30_encoding.md R105). -/
def Reg.ofIndex : Fin 8 → Reg
  | 0 => .eax
  | 1 => .ecx
  | 2 => .edx
  | 3 => .ebx
  | 4 => .esp
  | 5 => .ebp
  | 6 => .esi
  | 7 => .edi

/-- A register's index in declaration order (10_state.md R30). -/
def Reg.index : Reg → Fin 8
  | .eax => 0
  | .ecx => 1
  | .edx => 2
  | .ebx => 3
  | .esp => 4
  | .ebp => 5
  | .esi => 6
  | .edi => 7

/-- The register field `rsel = op[2:0]` (30_encoding.md R101, R105; 40_instruction_cycle.md R140). -/
def regField (op : Byte) : Reg := Reg.ofIndex (op.extractLsb' 0 3).toFin

/-- The move to a register, as the constructor of its opcode-table row. -/
def movInstr (r : Reg) (imm : Word) : Instr :=
  match r with
  | .eax => .movEax imm
  | .ecx => .movEcx imm
  | .edx => .movEdx imm
  | .ebx => .movEbx imm
  | .esp => .movEsp imm
  | .ebp => .movEbp imm
  | .esi => .movEsi imm
  | .edi => .movEdi imm

/-- The immediate field from its four bytes, lowest address first: `imm[31:24] ‖ imm[23:16] ‖ imm[15:8] ‖ imm[7:0]`
(30_encoding.md R101; little-endian, 20_memory.md R75). -/
def immField (b1 b2 b3 b4 : Byte) : Word := b4 ++ b3 ++ b2 ++ b1

/-- Byte `k` of a 32-bit value: `v[8k+7:8k]` (00_scope.md R10). -/
def byteOf (v : Word) (k : Nat) : Byte := v.extractLsb' (8 * k) 8

/-- Why a byte list does not decode. -/
inductive DecodeError where
  /-- There is no opcode byte. -/
  | noBytes
  /-- The opcode byte is one of the 247 unassigned ones (30_encoding.md R108). -/
  | unassigned (op : Byte)
  /-- The list ends inside the operand bytes that the assigned opcode's format has (30_encoding.md R103). -/
  | cutOff (op : Byte)
  deriving DecidableEq, Repr

/-- Decode one instruction from the front of a byte list; answer it and the bytes after it. The opcode byte alone
selects the format (30_encoding.md R100, R110), and no operand byte of an unassigned opcode is looked at (R108). -/
def decode : List Byte → Except DecodeError (Instr × List Byte)
  | [] => .error .noBytes
  | op :: rest =>
    match lookup op with
    | none => .error (.unassigned op)
    | some .movR32Imm32 =>
      match rest with
      | b1 :: b2 :: b3 :: b4 :: rest' => .ok (movInstr (regField op) (immField b1 b2 b3 b4), rest')
      | _ => .error (.cutOff op)
    | some .jmpRel8 =>
      match rest with
      | b1 :: rest' => .ok (.jmpRel8 b1, rest')
      | _ => .error (.cutOff op)

/-- The four immediate bytes of format OI, least significant first (30_encoding.md R101). -/
def encodeImm (imm : Word) : List Byte := [byteOf imm 0, byteOf imm 1, byteOf imm 2, byteOf imm 3]

/-- The bytes of an instruction in address order (30_encoding.md R101, R102, R105). -/
def encode : Instr → List Byte
  | .movEax imm => 0xB8#8 :: encodeImm imm
  | .movEcx imm => 0xB9#8 :: encodeImm imm
  | .movEdx imm => 0xBA#8 :: encodeImm imm
  | .movEbx imm => 0xBB#8 :: encodeImm imm
  | .movEsp imm => 0xBC#8 :: encodeImm imm
  | .movEbp imm => 0xBD#8 :: encodeImm imm
  | .movEsi imm => 0xBE#8 :: encodeImm imm
  | .movEdi imm => 0xBF#8 :: encodeImm imm
  | .jmpRel8 disp => [0xEB#8, disp]

/-- The five bytes, lowest address first, of an opcode-table word: bit 0 is the least significant bit of the first
byte, and every bit from `nbits` on is 0. Five bytes is the longest instruction. -/
def tableBytes (nbits w : Nat) : List Byte :=
  let v := w % 2 ^ nbits
  [BitVec.ofNat 8 v, BitVec.ofNat 8 (v / 2 ^ 8), BitVec.ofNat 8 (v / 2 ^ 16), BitVec.ofNat 8 (v / 2 ^ 24),
    BitVec.ofNat 8 (v / 2 ^ 32)]

/-- The instruction the decoder reads from an opcode-table word. -/
def decodeTableWord (nbits w : Nat) : Option Instr :=
  match decode (tableBytes nbits w) with
  | .ok (i, _) => some i
  | .error _ => none

end Sys2Proof
end

