-- ==== Sys2Proof/Machine/ResetConfig.lean ====
section
/-! DEFINITION. The parameter values of the one machine instance that `State.reset` is. -/
namespace Sys2Proof.Machine

/-- The configuration of `State.reset`. DESIGN CHOICE, unsafe (log entry 2): 00_scope.md R8 leaves every parameter
but `memory_size` open; `memory_size` has the source's default 1,000,000 (D8). Zero where nothing is given, no load
limit, and the four-byte immediate of the source's contract (D3). Every other configuration is `State.construct`'s. -/
def resetConfig : Cfg where
  memorySize := 1000000
  entryPoint := 0x00000000#32
  initialStackPointer := 0x00000000#32
  loadAddress := 0
  loadLimit := none
  imm32Bytes := .four

end Sys2Proof.Machine
end

