-- ==== Sys2Proof/Machine/State.lean ====
section
/-! DEFINITION. The state of one FDX core (10_state.md R54), why a step can stop, construction and reset. -/
namespace Sys2Proof.Machine

/-- The register file: eight 32-bit registers, none hard-wired, banked or aliased (10_state.md R30, R33). -/
structure RegFile where
  eax : Word
  ecx : Word
  edx : Word
  ebx : Word
  esp : Word
  ebp : Word
  esi : Word
  edi : Word
  deriving DecidableEq, Repr

/-- Memory contents: addresses strictly rising, no entry equal to what an unlisted address reads as. -/
abbrev Memory := List Host.Cell

/-- What a byte that nothing has written reads as: memory is zero-initialised (20_memory.md R70). -/
def Memory.unlisted : Byte := 0x00#8

/-- The canonical form of the entries at addresses from `lo` on. -/
def Memory.wfFrom (lo : Nat) : Memory → Bool
  | [] => true
  | (a, v) :: m => decide (lo ≤ a) && decide (v ≠ Memory.unlisted) && Memory.wfFrom (a + 1) m

/-- The canonical form: equal memories are equal data. -/
def Memory.wf (m : Memory) : Bool := Memory.wfFrom 0 m

/-- Every entry lies below the capacity. -/
def Memory.below (size : Nat) : Memory → Bool
  | [] => true
  | (a, _) :: m => decide (a < size) && Memory.below size m

/-- The run states (10_state.md R43, R44). -/
inductive RunState where
  | running
  | haltedUnimplemented
  | haltedAtZero
  | haltedEipOutOfRange
  | faultOutOfBounds
  deriving DecidableEq, Repr

/-- The contents of `halt_info`, one shape per terminal state that records something (10_state.md R45). -/
inductive HaltInfo where
  /-- `HaltedUnimplemented`: the fetched byte and its address. -/
  | unimplemented (opcode : Byte) (address : Word)
  /-- `HaltedEipOutOfRange`: the `eip` that failed the guard. -/
  | eipOutOfRange (address : Word)
  /-- `FaultOutOfBounds`: the first out-of-range address, unwrapped, the instruction's address and its opcode. -/
  | outOfBounds (faultAddress : Nat) (address : Word) (opcode : Byte)
  deriving DecidableEq, Repr

/-- One step event (10_state.md R49); `target = none` is a miss. -/
structure TraceEvent where
  address : Word
  opcode : Byte
  target : Option HandlerId
  deriving DecidableEq, Repr

/-- The state of one machine instance: the record of 10_state.md R54, and the configuration it was built with.
`cfg` is a parameter, not architectural state (R51); it stands here because `step` takes a state alone (log entry 1). -/
structure State where
  cfg : Cfg
  regs : RegFile
  eip : Word
  eflags : Word
  mem : Memory
  run : RunState
  haltInfo : Option HaltInfo
  trace : List TraceEvent
  deriving DecidableEq, Repr

/-- Why the machine stops without a next state. The spec's own fatal fault, `FaultOutOfBounds`, is not here: it is a
run state that a step enters (60_exceptions.md R203). -/
inductive Fault where
  /-- Raised by `step` when `run ≠ Running`: no step is enabled and no state changes (10_state.md R46;
  93_implementation_defined.md I-AFTERTERM, stuck). Safe: the spec defines no step there. -/
  | noStepEnabled
  deriving DecidableEq, Repr

/-- Why an instruction has no meaning in the model. -/
inductive Refusal where
  /-- Raised by `exec` for an instruction with no meaning yet; safe. No arm raises it. -/
  | notModelled (mnemonic : String)
  deriving DecidableEq, Repr

/-- The register file at construction (10_state.md R30; 70_reset_and_hazards.md R231). -/
def RegFile.construct (initialStackPointer : Word) : RegFile where
  eax := 0x00000000#32
  ecx := 0x00000000#32
  edx := 0x00000000#32
  ebx := 0x00000000#32
  esp := initialStackPointer
  ebp := 0x00000000#32
  esi := 0x00000000#32
  edi := 0x00000000#32

/-- Reset is construction from a configuration (70_reset_and_hazards.md R230 to R234). -/
def State.construct (cfg : Cfg) : State where
  cfg := cfg
  regs := RegFile.construct cfg.initialStackPointer
  eip := cfg.entryPoint
  eflags := 0x00000000#32
  mem := []
  run := .running
  haltInfo := none
  trace := []

/-- The machine right after reset, at the parameter values of `resetConfig` (log entry 2). -/
def State.reset : State := State.construct resetConfig

end Sys2Proof.Machine
end

