-- ==== Sys2Proof/Machine/Flags.lean ====
section
/-! DEFINITION. Flags and the ALU stub. `eflags` is an opaque word (10_state.md R41), no instruction reads or writes
it (R40), and the spec gives no flag computation: what there is are the write enable and the empty ALU interface. -/
namespace Sys2Proof.Machine

/-- The ALU operations of this version: none (40_instruction_cycle.md R155). -/
inductive AluOp : Type
  deriving DecidableEq, Repr

/-- The ALU interface offered to future handlers: result and flags from operands and flags. It has no case to
define, because `AluOp` is empty (40_instruction_cycle.md R155). -/
def alu (op : AluOp) (_a _b _flagsIn : Word) : Word × Word := nomatch op

/-- The value of `eflags` after the commit's flags write (40_instruction_cycle.md R151). -/
def flagsAfter (flagsWe : Option Word) (eflags : Word) : Word :=
  match flagsWe with
  | some f => f
  | none => eflags

end Sys2Proof.Machine
end

