-- ==== Sys2Proof/Machine/Ops.lean ====
section
/-! DEFINITION. The named operations over registers, memory and run state, entering the fatal fault, and the commit
of a handler's output. -/
namespace Sys2Proof.Machine

/-! ### Register file ports -/

/-- Read port (10_state.md R31). -/
def RegFile.get (rf : RegFile) : Reg → Word
  | .eax => rf.eax
  | .ecx => rf.ecx
  | .edx => rf.edx
  | .ebx => rf.ebx
  | .esp => rf.esp
  | .ebp => rf.ebp
  | .esi => rf.esi
  | .edi => rf.edi

/-- Write port (10_state.md R32). -/
def RegFile.set (rf : RegFile) (r : Reg) (v : Word) : RegFile :=
  match r with
  | .eax => { rf with eax := v }
  | .ecx => { rf with ecx := v }
  | .edx => { rf with edx := v }
  | .ebx => { rf with ebx := v }
  | .esp => { rf with esp := v }
  | .ebp => { rf with ebp := v }
  | .esi => { rf with esi := v }
  | .edi => { rf with edi := v }

/-- The register write of the commit: at most one register (40_instruction_cycle.md R151). -/
def RegFile.write (rf : RegFile) (regWe : Option (Reg × Word)) : RegFile :=
  match regWe with
  | some (r, v) => rf.set r v
  | none => rf

/-! ### Memory contents -/

/-- The byte held at an address, before any bounds check. -/
def Memory.read : Memory → Nat → Byte
  | [], _ => Memory.unlisted
  | (k, v) :: m, a => if k = a then v else Memory.read m a

/-- Write one byte, keeping the canonical form. -/
def Memory.write : Memory → Nat → Byte → Memory
  | [], a, v => if v = Memory.unlisted then [] else [(a, v)]
  | (k, w) :: m, a, v =>
    if a < k then (if v = Memory.unlisted then (k, w) :: m else (a, v) :: (k, w) :: m)
    else if a = k then (if v = Memory.unlisted then m else (a, v) :: m)
    else (k, w) :: Memory.write m a v

/-- Write bytes at rising addresses. -/
def Memory.writeBytes (m : Memory) (a : Nat) : List Byte → Memory
  | [] => m
  | b :: bs => Memory.writeBytes (m.write a b) (a + 1) bs

/-- The lowest address at or beyond the capacity among `a, a+1, …, a+n−1`, if there is one. Addresses are natural
numbers and do not wrap (20_memory.md R71; 40_instruction_cycle.md R133). -/
def firstOutOfRange (size a : Nat) : Nat → Option Nat
  | 0 => none
  | n + 1 => if size ≤ a then some a else firstOutOfRange size (a + 1) n

/-- The bulk write port `MemWrite` (20_memory.md R73): the whole range is checked before any byte is written, and a
failure answers the first out-of-range address. Only the host's load uses it. -/
def Memory.bulkWrite (size : Nat) (m : Memory) (a : Nat) (bytes : List Byte) : Except Nat Memory :=
  match firstOutOfRange size a bytes.length with
  | some bad => .error bad
  | none => .ok (m.writeBytes a bytes)

/-! ### Fetch unit -/

/-- The loop guard `to_nat(eip) < memory_size` (40_instruction_cycle.md R130, R131). -/
def State.guardOk (s : State) : Bool := decide (s.eip.toNat < s.cfg.memorySize)

/-- The byte `k` places after the opcode byte as the array holds it, with no check. -/
def State.byteAt (s : State) (k : Nat) : Byte := s.mem.read (s.eip.toNat + k)

/-- The opcode byte of the step (40_instruction_cycle.md R132); meaningful when the guard passes. -/
def State.opcode (s : State) : Byte := s.byteAt 0

/-- The longest instruction's worth of bytes from `eip` on. A byte of it at or beyond `memory_size` is not in memory;
no effect can depend on one, since the meaning of an instruction checks its own operand bytes first and raises
(40_instruction_cycle.md R134 to R136). -/
def State.fetchWindow (s : State) : List Byte :=
  [s.byteAt 0, s.byteAt 1, s.byteAt 2, s.byteAt 3, s.byteAt 4]

/-- The instruction at `eip`, or `none` where the opcode byte is unassigned. -/
def State.fetchInstr (s : State) : Option Instr :=
  match decode s.fetchWindow with
  | .ok (i, _) => some i
  | .error _ => none

/-- The sequential incrementer `eip +₃₂ len` (40_instruction_cycle.md R138; the wrap is D6). -/
def State.seqNext (s : State) (len : Word) : Word := s.eip + len

/-! ### Trace, halts and the fatal fault -/

/-- Append the step's event, after the lookup and before the handler (40_instruction_cycle.md R142). -/
def State.record (s : State) (op : Byte) : State :=
  { s with trace := s.trace ++ [{ address := s.eip, opcode := op, target := lookup op }] }

/-- `halt S(info)` (10_state.md R44). -/
def State.halt (s : State) (run : RunState) (info : Option HaltInfo) : State :=
  { s with run := run, haltInfo := info }

/-- The guard exit (40_instruction_cycle.md R131). -/
def State.haltEipOutOfRange (s : State) : State :=
  s.halt .haltedEipOutOfRange (some (.eipOutOfRange s.eip))

/-- The lookup miss (40_instruction_cycle.md R146). -/
def State.haltUnimplemented (s : State) (op : Byte) : State :=
  s.halt .haltedUnimplemented (some (.unimplemented op s.eip))

/-- Entering the fatal fault, the machine's one exception (60_exceptions.md R203): the cause is recorded and nothing
else changes. There is no vector, no saved pc, no mode change and no return from it (R211, R212). -/
def State.takeOutOfBounds (s : State) (faultAddress : Nat) (op : Byte) : State :=
  s.halt .faultOutOfBounds (some (.outOfBounds faultAddress s.eip op))

/-- The halt-at-zero test on the committed `eip` (40_instruction_cycle.md R153, R154). -/
def State.testZero (s : State) : State :=
  if s.eip = 0x00000000#32 then s.halt .haltedAtZero none else s

/-! ### Handler output and commit -/

/-- The effect record of a handler (40_instruction_cycle.md R150). -/
structure Effect where
  regWe : Option (Reg × Word)
  flagsWe : Option Word
  nextEip : Word
  deriving DecidableEq, Repr

/-- What a handler returns (40_instruction_cycle.md R150). -/
inductive HandlerOut where
  | fault (faultAddress : Nat)
  | effect (e : Effect)
  deriving DecidableEq, Repr

/-- Apply an effect record: the writes take effect together (40_instruction_cycle.md R151; 00_scope.md R13). Nothing
more is added to `eip` (R152). -/
def State.applyEffect (s : State) (e : Effect) : State :=
  { s with regs := s.regs.write e.regWe, eflags := flagsAfter e.flagsWe s.eflags, eip := e.nextEip }

/-- The end of a step whose handler ran for opcode `op`: the fault's entry, or the commit and the halt-at-zero test
(40_instruction_cycle.md R151, R153, R160). -/
def State.commit (s : State) (op : Byte) (out : HandlerOut) : State :=
  match out with
  | .fault a => s.takeOutOfBounds a op
  | .effect e => (s.applyEffect e).testZero

/-- A handler run always ends in a next state (40_instruction_cycle.md R161). -/
def finish (op : Byte) (out : HandlerOut) (s : State) : Host.Outcome State Fault Refusal :=
  .next (s.commit op out)

end Sys2Proof.Machine
end

