-- ==== Sys2Proof/Machine/Operands.lean ====
section
/-! DEFINITION. Operand forms: the checked memory reads, the decoder's read ports, sign extension and the assembly of
the 32-bit immediate. An `.error a` is `raise OutOfBoundsAccess(a)`. -/
namespace Sys2Proof.Machine

/-- `sext_32` (00_scope.md R11). -/
def sext32 (b : Byte) : Word := b.signExtend 32

/-- The immediate's value from its encoded field (30_encoding.md R106): all 32 bits, or the low three bytes with
bits 31:24 zero. -/
def assembleImm32 (n : Imm32Bytes) (field : Word) : Word :=
  match n with
  | .four => field
  | .three => (field.extractLsb' 0 24).setWidth 32

/-- `MemByte(a)` (20_memory.md R71). -/
def State.memByte (s : State) (a : Nat) : Except Nat Byte :=
  if s.cfg.memorySize ≤ a then .error a else .ok (s.mem.read a)

/-- `MemRead(a, n)`: bytes in rising address order, composed little-endian (20_memory.md R74). -/
def State.memRead (s : State) (a : Nat) : Nat → Except Nat Nat
  | 0 => .ok 0
  | n + 1 =>
    match s.memByte a with
    | .error bad => .error bad
    | .ok b =>
      match s.memRead (a + 1) n with
      | .error bad => .error bad
      | .ok v => .ok (b.toNat + 2 ^ 8 * v)

/-- `read_u8(k)` (40_instruction_cycle.md R134). -/
def State.readU8 (s : State) (k : Nat) : Except Nat Byte := s.memByte (s.eip.toNat + k)

/-- `read_i8(k)` (40_instruction_cycle.md R135). -/
def State.readI8 (s : State) (k : Nat) : Except Nat Word :=
  match s.readU8 k with
  | .error bad => .error bad
  | .ok b => .ok (sext32 b)

/-- `read_u32(k)` (40_instruction_cycle.md R136): four bytes checked, lowest first, in both modes (D4); then
`IMM32_BYTES` of them assembled. -/
def State.readU32 (s : State) (k : Nat) : Except Nat Word :=
  match firstOutOfRange s.cfg.memorySize (s.eip.toNat + k) 4 with
  | some bad => .error bad
  | none =>
    let b0 := (s.byteAt k).setWidth 32
    let b1 := (s.byteAt (k + 1)).setWidth 32
    let b2 := (s.byteAt (k + 2)).setWidth 32
    let b3 := (s.byteAt (k + 3)).setWidth 32
    match s.cfg.imm32Bytes with
    | .four => .ok (b0 ||| b1 <<< 8 ||| b2 <<< 16 ||| b3 <<< 24)
    | .three => .ok (b0 ||| b1 <<< 8 ||| b2 <<< 16)

/-- The bounds check that a meaning makes of its own `n` operand bytes, at `eip+1 … eip+n`: the raise of the read
ports above, for an instruction whose operand the decoder has already taken from those bytes. -/
def State.operandFault (s : State) (n : Nat) : Option Nat :=
  firstOutOfRange s.cfg.memorySize (s.eip.toNat + 1) n

end Sys2Proof.Machine
end

