-- ==== Sys2Proof/Machine/ControlTransfer.lean ====
section
/-! DEFINITION. Control transfer: `jmp rel8` (42_control_transfer.md R180 to R187). -/
namespace Sys2Proof.Machine

/-- The handler `JMP_REL8` for an encoded displacement (42_control_transfer.md R182): the displacement byte is checked
(R184), the target `eip +₃₂ disp +₃₂ 2` is not. -/
def jmpHandler (disp : Byte) (s : State) : HandlerOut :=
  match s.operandFault 1 with
  | some bad => .fault bad
  | none => .effect { regWe := none, flagsWe := none, nextEip := s.eip + sext32 disp + 2#32 }

/-- `jmp rel8`, opcode 0xEB (42_control_transfer.md R182). -/
def execJmpRel8 (disp : Byte) (s : State) : Host.Outcome State Fault Refusal :=
  finish 0xEB#8 (jmpHandler disp s) s

end Sys2Proof.Machine
end

