-- ==== Sys2Proof/Machine/DataMovement.lean ====
section
/-! DEFINITION. Data movement: `mov r32, imm32` (41_data_movement.md R170 to R176), one meaning per opcode row. -/
namespace Sys2Proof.Machine

/-- The handler `MOV_R32_IMM32` for a register and an encoded immediate field (41_data_movement.md R172): the four
immediate bytes are checked in both modes (R174, D4), then the register write, no flags (R173) and `eip +₃₂ 5`. -/
def movHandler (r : Reg) (imm : Word) (s : State) : HandlerOut :=
  match s.operandFault 4 with
  | some bad => .fault bad
  | none =>
    .effect { regWe := some (r, assembleImm32 s.cfg.imm32Bytes imm), flagsWe := none, nextEip := s.seqNext 5#32 }

/-- `mov eax, imm32`, opcode 0xB8 (41_data_movement.md R171, R172). -/
def execMovEax (imm : Word) (s : State) : Host.Outcome State Fault Refusal :=
  finish 0xB8#8 (movHandler .eax imm s) s

/-- `mov ecx, imm32`, opcode 0xB9 (41_data_movement.md R171, R172). -/
def execMovEcx (imm : Word) (s : State) : Host.Outcome State Fault Refusal :=
  finish 0xB9#8 (movHandler .ecx imm s) s

/-- `mov edx, imm32`, opcode 0xBA (41_data_movement.md R171, R172). -/
def execMovEdx (imm : Word) (s : State) : Host.Outcome State Fault Refusal :=
  finish 0xBA#8 (movHandler .edx imm s) s

/-- `mov ebx, imm32`, opcode 0xBB (41_data_movement.md R171, R172). -/
def execMovEbx (imm : Word) (s : State) : Host.Outcome State Fault Refusal :=
  finish 0xBB#8 (movHandler .ebx imm s) s

/-- `mov esp, imm32`, opcode 0xBC (41_data_movement.md R171, R172); ESP is not special (10_state.md R33). -/
def execMovEsp (imm : Word) (s : State) : Host.Outcome State Fault Refusal :=
  finish 0xBC#8 (movHandler .esp imm s) s

/-- `mov ebp, imm32`, opcode 0xBD (41_data_movement.md R171, R172). -/
def execMovEbp (imm : Word) (s : State) : Host.Outcome State Fault Refusal :=
  finish 0xBD#8 (movHandler .ebp imm s) s

/-- `mov esi, imm32`, opcode 0xBE (41_data_movement.md R171, R172). -/
def execMovEsi (imm : Word) (s : State) : Host.Outcome State Fault Refusal :=
  finish 0xBE#8 (movHandler .esi imm s) s

/-- `mov edi, imm32`, opcode 0xBF (41_data_movement.md R171, R172). -/
def execMovEdi (imm : Word) (s : State) : Host.Outcome State Fault Refusal :=
  finish 0xBF#8 (movHandler .edi imm s) s

end Sys2Proof.Machine
end

