-- ==== Sys2Proof/Machine/Dispatch.lean ====
section
/-! DEFINITION. The dispatch of an instruction to its meaning (40_instruction_cycle.md R141). -/
namespace Sys2Proof.Machine

def exec (i : Instr) (s : State) : Host.Outcome State Fault Refusal :=
  match i with
  | .movEax imm => Sys2Proof.Machine.execMovEax imm s
  | .movEcx imm => Sys2Proof.Machine.execMovEcx imm s
  | .movEdx imm => Sys2Proof.Machine.execMovEdx imm s
  | .movEbx imm => Sys2Proof.Machine.execMovEbx imm s
  | .movEsp imm => Sys2Proof.Machine.execMovEsp imm s
  | .movEbp imm => Sys2Proof.Machine.execMovEbp imm s
  | .movEsi imm => Sys2Proof.Machine.execMovEsi imm s
  | .movEdi imm => Sys2Proof.Machine.execMovEdi imm s
  | .jmpRel8 disp => Sys2Proof.Machine.execJmpRel8 disp s

end Sys2Proof.Machine
end

