-- ==== Sys2Proof/Machine/Step.lean ====
section
/-! DEFINITION. The step (40_instruction_cycle.md R160) and the placing of one instruction for it to fetch. -/
namespace Sys2Proof.Machine

/-- One iteration of the execution loop (40_instruction_cycle.md R160): the loop guard, the fetch, the trace event,
then the miss halt or the instruction. From a terminal run state there is no step (10_state.md R46). -/
def step (s : State) : Host.Outcome State Fault Refusal :=
  if s.run ≠ .running then .fault .noStepEnabled
  else if s.guardOk = false then .next s.haltEipOutOfRange
  else
    match s.fetchInstr with
    | none => .next ((s.record s.opcode).haltUnimplemented s.opcode)
    | some i => exec i (s.record s.opcode)

/-- The state with an opcode-table word stored where `step` fetches, at `eip … eip+4`: the bytes of it that lie in
memory. It stands for the host's load of an image (70_reset_and_hazards.md R236; log entry 3). -/
def State.withFetchWord (s : State) (nbits w : Nat) : State :=
  { s with mem := s.mem.writeBytes s.eip.toNat ((tableBytes nbits w).take (s.cfg.memorySize - s.eip.toNat)) }

end Sys2Proof.Machine
end

