-- ==== Sys2Proof/Machine/Cycle.lean ====
section
/-! DEFINITION. The instruction cycle in the spec's own form: handlers as functions of their inputs that read their
operands through the decoder's ports (40_instruction_cycle.md R150; 41_data_movement.md R172; 42_control_transfer.md
R182), and the step of R160 over them. The machine's `step` decodes an `Instr` first and dispatches on it; that the two
are one function is a statement of the certificates. -/
namespace Sys2Proof.Machine

/-- The inputs of a handler (40_instruction_cycle.md R150). -/
structure HandlerIn where
  op : Byte
  eip : Word
  regs : Reg → Word
  eflags : Word
  readU8 : Nat → Except Nat Byte
  readI8 : Nat → Except Nat Word
  readU32 : Nat → Except Nat Word

/-- The inputs a step gives its handler: the values at the start of the step (10_state.md R31). -/
def State.handlerIn (s : State) (op : Byte) : HandlerIn where
  op := op
  eip := s.eip
  regs := s.regs.get
  eflags := s.eflags
  readU8 := s.readU8
  readI8 := s.readI8
  readU32 := s.readU32

/-- `MOV_R32_IMM32(in)` (41_data_movement.md R172). -/
def HandlerIn.movR32Imm32 (h : HandlerIn) : HandlerOut :=
  match h.readU32 1 with
  | .error bad => .fault bad
  | .ok imm32 => .effect { regWe := some (regField (h.op - 0xB8#8), imm32), flagsWe := none, nextEip := h.eip + 5#32 }

/-- `JMP_REL8(in)` (42_control_transfer.md R182). -/
def HandlerIn.jmpRel8 (h : HandlerIn) : HandlerOut :=
  match h.readI8 1 with
  | .error bad => .fault bad
  | .ok disp => .effect { regWe := none, flagsWe := none, nextEip := h.eip + disp + 2#32 }

/-- The dispatch multiplexer: the output of the one selected handler (40_instruction_cycle.md R141). -/
def HandlerIn.run (h : HandlerIn) : HandlerId → HandlerOut
  | .movR32Imm32 => h.movR32Imm32
  | .jmpRel8 => h.jmpRel8

/-- The step function as 40_instruction_cycle.md R160 writes it, for a state whose run is `Running`. -/
def State.cycle (s : State) : State :=
  if s.cfg.memorySize ≤ s.eip.toNat then
    { s with run := .haltedEipOutOfRange, haltInfo := some (.eipOutOfRange s.eip) }
  else
    let op := s.mem.read s.eip.toNat
    let s1 : State := { s with trace := s.trace ++ [{ address := s.eip, opcode := op, target := lookup op }] }
    match lookup op with
    | none => { s1 with run := .haltedUnimplemented, haltInfo := some (.unimplemented op s.eip) }
    | some sel =>
      match (s.handlerIn op).run sel with
      | .fault bad => { s1 with run := .faultOutOfBounds, haltInfo := some (.outOfBounds bad s.eip op) }
      | .effect e =>
        let s2 : State :=
          { s1 with
            regs := match e.regWe with
              | some (r, v) => s.regs.set r v
              | none => s.regs
            eflags := match e.flagsWe with
              | some f => f
              | none => s.eflags
            eip := e.nextEip }
        if s2.eip = 0x00000000#32 then { s2 with run := .haltedAtZero } else s2

end Sys2Proof.Machine
end

