-- ==== Sys2Proof/Machine/Session.lean ====
section
/-! DEFINITION. The host's side (70_reset_and_hazards.md R230, R236 to R239): construct, load once, step, read. -/
namespace Sys2Proof.Machine

/-- Why a load fails (60_exceptions.md R206; 70_reset_and_hazards.md R236). No machine state exists after it. -/
inductive LoadFailure where
  /-- The image cannot be read. -/
  | readError
  /-- The loaded part does not fit; the first address at or beyond the capacity. -/
  | imageOutOfBounds (address : Nat)
  deriving DecidableEq, Repr

/-- The part of an image that is loaded: all of it, or a prefix of `load_limit` bytes (70_reset_and_hazards.md R236). -/
def Cfg.loadedPart (cfg : Cfg) (img : List Byte) : List Byte :=
  match cfg.loadLimit with
  | none => img
  | some m => img.take m

/-- `load(img)` (70_reset_and_hazards.md R236); `none` is an image that cannot be read. -/
def State.loadImage (s : State) (img : Option (List Byte)) : Except LoadFailure State :=
  match img with
  | none => .error .readError
  | some bytes =>
    match s.mem.bulkWrite s.cfg.memorySize s.cfg.loadAddress (Cfg.loadedPart s.cfg bytes) with
    | .error bad => .error (.imageOutOfBounds bad)
    | .ok m => .ok { s with mem := m }

/-- The post-load state, where every run starts (70_reset_and_hazards.md R237, R238). -/
def State.boot (cfg : Cfg) (img : Option (List Byte)) : Except LoadFailure State :=
  (State.construct cfg).loadImage img

/-- How far the host has brought a machine (70_reset_and_hazards.md R238). -/
inductive Phase where
  | constructed
  | loaded
  | stepping
  deriving DecidableEq, Repr

/-- A machine and the host's progress with it. -/
structure Session where
  phase : Phase
  state : State
  deriving DecidableEq, Repr

/-- What the host may not do (70_reset_and_hazards.md R239; 93_implementation_defined.md I-LOADLATE, I-AFTERTERM). -/
inductive HostRefusal where
  /-- A second load, or a load after the first step. -/
  | lateLoad
  /-- A step before a load has succeeded (R238). -/
  | stepBeforeLoad
  /-- A step from a terminal run state. -/
  | stepAfterTerminal
  deriving DecidableEq, Repr

/-- What the machine answers the host. -/
inductive HostReply where
  | accepted (session : Session)
  | loadFailed (cause : LoadFailure)
  | refused (why : HostRefusal)
  deriving DecidableEq, Repr

/-- construct: the host sends a configuration (70_reset_and_hazards.md R239). -/
def Session.construct (cfg : Cfg) : Session where
  phase := .constructed
  state := State.construct cfg

/-- load: once, before the first step (70_reset_and_hazards.md R239). -/
def Session.load (x : Session) (img : Option (List Byte)) : HostReply :=
  match x.phase with
  | .constructed =>
    match x.state.loadImage img with
    | .error cause => .loadFailed cause
    | .ok s => .accepted { phase := .loaded, state := s }
  | .loaded => .refused .lateLoad
  | .stepping => .refused .lateLoad

/-- step: after the load, while `run = Running` (70_reset_and_hazards.md R239). -/
def Session.step (x : Session) : HostReply :=
  match x.phase with
  | .constructed => .refused .stepBeforeLoad
  | .loaded | .stepping =>
    match Sys2Proof.Machine.step x.state with
    | .next s => .accepted { phase := .stepping, state := s }
    | .fault _ => .refused .stepAfterTerminal
    | .refused _ => .refused .stepAfterTerminal

/-- The dump port's reading (10_state.md R53). -/
structure Dump where
  regs : RegFile
  eflags : Word
  eip : Word
  run : RunState
  haltInfo : Option HaltInfo
  deriving DecidableEq, Repr

/-- read: the dump port (10_state.md R53). -/
def State.dump (s : State) : Dump where
  regs := s.regs
  eflags := s.eflags
  eip := s.eip
  run := s.run
  haltInfo := s.haltInfo

/-- Whether the dump's register values may be relied on: not in a faulted state (10_state.md R53; 60_exceptions.md
R205). -/
def State.dumpConsistent (s : State) : Bool := decide (s.run ≠ .faultOutOfBounds)

/-- read: the trace port (10_state.md R52). -/
def State.traceHistory (s : State) : List TraceEvent := s.trace

end Sys2Proof.Machine
end

