-- ==== Sys2Proof/Safety.lean ====
section
/-! DEFINITION. Runs, what counts as a safe run, and the invariant of the machine's states. -/
namespace Sys2Proof.Machine

/-- The states a run from `s` passes through (40_instruction_cycle.md R162). -/
inductive Reaches (s : State) : State → Prop where
  | refl : Reaches s s
  | step {t u : State} : Reaches s t → Sys2Proof.Machine.step t = .next u → Reaches s u

/-- A safe run never enters the fatal fault, the one run state whose values no claim may use
(60_exceptions.md R205; D17). -/
def State.Safe (s : State) : Prop := ∀ t, Reaches s t → t.run ≠ .faultOutOfBounds

/-- `halt_info` agrees with the run state (10_state.md R45), with what each record says of memory and the capacity.
Nothing is said of the registers, `eip` or `eflags` of a faulted state (60_exceptions.md R205). -/
def State.HaltRecordOk (s : State) : Prop :=
  match s.run, s.haltInfo with
  | .running, none => True
  | .haltedAtZero, none => s.eip = 0x00000000#32
  | .haltedUnimplemented, some (.unimplemented op a) =>
    a = s.eip ∧ a.toNat < s.cfg.memorySize ∧ op = s.mem.read a.toNat ∧ lookup op = none
  | .haltedEipOutOfRange, some (.eipOutOfRange a) => a = s.eip ∧ s.cfg.memorySize ≤ a.toNat
  | .faultOutOfBounds, some (.outOfBounds bad a op) =>
    bad = s.cfg.memorySize ∧ a.toNat < s.cfg.memorySize ∧ op = s.mem.read a.toNat ∧
      ∃ len, encodedLength op = some len ∧ s.cfg.memorySize < a.toNat + len
  | _, _ => False

/-- A trace event says what was fetched: an address in memory, the byte there, its table entry (10_state.md R49). -/
def State.TraceOk (s : State) : Prop :=
  ∀ e ∈ s.trace, e.address.toNat < s.cfg.memorySize ∧ e.opcode = s.mem.read e.address.toNat ∧ e.target = lookup e.opcode

/-- The invariant: it holds of every post-load state and every step keeps it. -/
structure State.Inv (s : State) : Prop where
  /-- The capacity is in its range (00_scope.md R8). -/
  cfgOk : s.cfg.wellFormed = true
  /-- Memory keeps its canonical form. -/
  memWf : s.mem.wf = true
  /-- No byte is held at or beyond the capacity (20_memory.md R70). -/
  memBelow : Memory.below s.cfg.memorySize s.mem = true
  /-- The halt record agrees with the run state (10_state.md R45). -/
  haltRecord : s.HaltRecordOk
  /-- `eflags` is zero (10_state.md R40), faulted states left aside (60_exceptions.md R205). -/
  eflagsZero : s.run ≠ .faultOutOfBounds → s.eflags = 0x00000000#32
  /-- The trace is faithful (10_state.md R49). -/
  traceOk : s.TraceOk

end Sys2Proof.Machine
end

