-- ==== Sys2Proof/Certificates/Slice0/Obligations.lean ====
section
/-! DEFINITION. The statements about the machine, for the provers. The functions before them write out formulas of the
spec independently of the model's own definitions. Every statement is for every configuration, since it is for every
state and `cfg` is a field. No statement concludes a register, `eip` or `eflags` value of a faulted state
(60_exceptions.md R205); `StepIsTheSpecsCycle` alone compares whole states, the model's and the one that the spec's own
step function (R160) gives. -/
namespace Sys2Proof.Claims
open Sys2Proof.Machine

/-- `imm32` from its four bytes (30_encoding.md R106). -/
def immediateOf (n : Imm32Bytes) (b1 b2 b3 b4 : Byte) : Word :=
  match n with
  | .three => b1.setWidth 32 ||| (b2.setWidth 32 <<< 8) ||| (b3.setWidth 32 <<< 16)
  | .four => b1.setWidth 32 ||| (b2.setWidth 32 <<< 8) ||| (b3.setWidth 32 <<< 16) ||| (b4.setWidth 32 <<< 24)

/-- What a move of the encoded field `imm` leaves in its register (41_data_movement.md R175). -/
def movedValue (n : Imm32Bytes) (imm : Word) : Word :=
  match n with
  | .three => imm &&& 0x00FFFFFF#32
  | .four => imm

/-- The jump target `(to_nat(eip) + d + 2) mod 2^32` with `d` the signed value of `disp8` (42_control_transfer.md
R182). -/
def jumpTarget (eip : Word) (disp : Byte) : Word := BitVec.ofInt 32 ((eip.toNat : Int) + disp.toInt + 2)

/-- The halt-at-zero test after a handler (40_instruction_cycle.md R153). That it clears `haltInfo` is DEDUCED (log
entry 9). -/
def haltIfZero (s : State) : State :=
  if s.eip = 0x00000000#32 then { s with run := .haltedAtZero, haltInfo := none } else s

/-- The state with the step's event appended (40_instruction_cycle.md R142). -/
def traced (s : State) : State :=
  { s with
    trace := s.trace ++
      [{ address := s.eip, opcode := s.mem.read s.eip.toNat, target := lookup (s.mem.read s.eip.toNat) }] }

/-- The opcode byte of the move to a register: `0xB8 + r` (30_encoding.md R105). -/
def movOp (r : Reg) : Byte := 0xB8#8 + BitVec.ofNat 8 r.index.val

/-- The byte `k` places after the opcode. -/
def operandByte (s : State) (k : Nat) : Byte := s.mem.read (s.eip.toNat + k)

/-- The step ended in the fatal fault that records this address, this instruction address and this opcode, with
memory, configuration and trace as before it (60_exceptions.md R203). -/
def FaultedFrom (s t : State) (bad : Nat) (op : Byte) : Prop :=
  t.run = .faultOutOfBounds ∧ t.haltInfo = some (.outOfBounds bad s.eip op) ∧ t.trace = s.trace ∧ t.cfg = s.cfg ∧
    ∀ a, t.mem.read a = s.mem.read a

/-- Two states that tell the host the same of how the step ended: run state, halt record and trace. -/
def SameReport (t t' : State) : Prop := t'.run = t.run ∧ t'.haltInfo = t.haltInfo ∧ t'.trace = t.trace

/-- The part of the state that is not a register, memory or trace is as it was, but for a halt at zero, whose
cleared record is DEDUCED (log entry 9). -/
def HaltFrame (s t : State) : Prop :=
  t.cfg = s.cfg ∧ ((t.run = s.run ∧ t.haltInfo = s.haltInfo) ∨
    (t.run = .haltedAtZero ∧ t.haltInfo = none ∧ t.eip = 0x00000000#32))

end Sys2Proof.Claims

open Sys2Proof Sys2Proof.Machine Sys2Proof.Claims

/-! ### Encoding -/

/-- Words written out from the formats of 30_encoding.md R101 and R102. -/
def Obligations.SpecWordsDecode : Prop :=
  decode [0xB8#8, 0x2A#8, 0x00#8, 0x00#8, 0x00#8] = .ok (.movEax 0x0000002A#32, []) ∧
  decode [0xB9#8, 0x78#8, 0x56#8, 0x34#8, 0x12#8] = .ok (.movEcx 0x12345678#32, []) ∧
  decode [0xBF#8, 0x00#8, 0x00#8, 0x00#8, 0x80#8, 0x90#8] = .ok (.movEdi 0x80000000#32, [0x90#8]) ∧
  decode [0xEB#8, 0xFE#8] = .ok (.jmpRel8 0xFE#8, []) ∧
  decode [0x90#8, 0xEB#8, 0xFE#8] = .error (.unassigned 0x90#8)

/-- Decoding an encoded instruction gives it back with the bytes after it, at every operand value. -/
def Obligations.DecodeOfEncode : Prop :=
  ∀ (i : Instr) (rest : List Byte), decode (encode i ++ rest) = .ok (i, rest)

/-- Whatever decodes is the encoding of what it decodes to: each instruction has one encoding (30_encoding.md R110). -/
def Obligations.EncodeOfDecode : Prop :=
  ∀ (bytes : List Byte) (i : Instr) (rest : List Byte), decode bytes = .ok (i, rest) → bytes = encode i ++ rest

/-- 30_encoding.md R104: the dispatch table, and the decoder's rejection by name of every other opcode byte whatever
follows it. -/
def Obligations.DispatchTableContents : Prop :=
  ∀ (op : Byte) (rest : List Byte),
    (lookup op = some .movR32Imm32 ↔ 0xB8 ≤ op.toNat ∧ op.toNat ≤ 0xBF) ∧
    (lookup op = some .jmpRel8 ↔ op.toNat = 0xEB) ∧
    (lookup op = none ↔ ¬(0xB8 ≤ op.toNat ∧ op.toNat ≤ 0xBF) ∧ op.toNat ≠ 0xEB) ∧
    (decode (op :: rest) = .error (.unassigned op) ↔ lookup op = none)

/-- 30_encoding.md R103: the opcode byte alone gives the length; a list that is shorter is cut off and a list that is
not decodes to an instruction of that length. -/
def Obligations.LengthFromOpcodeAlone : Prop :=
  ∀ (op : Byte) (rest : List Byte),
    (encodedLength op = if 0xB8 ≤ op.toNat ∧ op.toNat ≤ 0xBF then some 5 else if op.toNat = 0xEB then some 2 else none) ∧
    ∀ len, encodedLength op = some len →
      (rest.length + 1 < len → decode (op :: rest) = .error (.cutOff op)) ∧
      (len ≤ rest.length + 1 → ∃ i, decode (op :: rest) = .ok (i, rest.drop (len - 1)) ∧ (encode i).length = len)

/-- 30_encoding.md R105: the register of a move is `b − 0xB8 = b[2:0]` in declaration order; with it, the immediate
field is the four bytes after the opcode, lowest first (R101). -/
def Obligations.RegisterFieldOfMove : Prop :=
  (Reg.eax.index = 0 ∧ Reg.ecx.index = 1 ∧ Reg.edx.index = 2 ∧ Reg.ebx.index = 3 ∧
    Reg.esp.index = 4 ∧ Reg.ebp.index = 5 ∧ Reg.esi.index = 6 ∧ Reg.edi.index = 7) ∧
  ∀ (op b1 b2 b3 b4 : Byte) (rest : List Byte), 0xB8 ≤ op.toNat → op.toNat ≤ 0xBF →
    ∃ r imm, decode (op :: b1 :: b2 :: b3 :: b4 :: rest) = .ok (movInstr r imm, rest) ∧
      r.index.val = op.toNat - 0xB8 ∧ r.index.val = (op.extractLsb' 0 3).toNat ∧
      imm.toNat = b1.toNat + b2.toNat * 2 ^ 8 + b3.toNat * 2 ^ 16 + b4.toNat * 2 ^ 24

/-! ### Memory and the decoder's read ports -/

/-- 20_memory.md R71: the byte read port, for every natural-number address: nothing is reduced before the check. -/
def Obligations.ByteReadChecksCapacity : Prop :=
  ∀ (s : State) (a : Nat),
    (s.cfg.memorySize ≤ a → s.memByte a = .error a) ∧
    (a < s.cfg.memorySize → s.memByte a = .ok (s.mem.read a))

/-- 20_memory.md R74: a multi-byte read is the little-endian sum of its bytes, and the first out-of-range byte
raises. -/
def Obligations.MultiByteReadIsLittleEndian : Prop :=
  ∀ (s : State) (a n : Nat), 1 ≤ n →
    (a + n ≤ s.cfg.memorySize →
      s.memRead a n = .ok (∑ k ∈ Finset.range n, (s.mem.read (a + k)).toNat * 2 ^ (8 * k))) ∧
    (s.cfg.memorySize < a + n → s.memRead a n = .error (max a s.cfg.memorySize))

/-- 40_instruction_cycle.md R136: four bytes are checked in both modes and the lowest bad address is raised; three or
four bytes are assembled, little-endian. -/
def Obligations.ImmediateReadChecksFourBytes : Prop :=
  ∀ (s : State) (k : Nat),
    (s.cfg.memorySize < s.eip.toNat + k + 4 → s.readU32 k = .error (max (s.eip.toNat + k) s.cfg.memorySize)) ∧
    (s.eip.toNat + k + 4 ≤ s.cfg.memorySize →
      ∃ v, s.readU32 k = .ok v ∧
        (s.cfg.imm32Bytes = .four → v.toNat = (operandByte s k).toNat + (operandByte s (k + 1)).toNat * 2 ^ 8 +
          (operandByte s (k + 2)).toNat * 2 ^ 16 + (operandByte s (k + 3)).toNat * 2 ^ 24) ∧
        (s.cfg.imm32Bytes = .three → v.toNat = (operandByte s k).toNat + (operandByte s (k + 1)).toNat * 2 ^ 8 +
          (operandByte s (k + 2)).toNat * 2 ^ 16))

/-- 40_instruction_cycle.md R134 and R135: the byte reads relative to `eip`, and the signed value of the second. -/
def Obligations.DisplacementReadIsSigned : Prop :=
  ∀ (s : State) (k : Nat),
    (s.cfg.memorySize ≤ s.eip.toNat + k →
      s.readU8 k = .error (s.eip.toNat + k) ∧ s.readI8 k = .error (s.eip.toNat + k)) ∧
    (s.eip.toNat + k < s.cfg.memorySize →
      s.readU8 k = .ok (operandByte s k) ∧
      ∃ v, s.readI8 k = .ok v ∧ v.toInt =
        if 0x80 ≤ (operandByte s k).toNat then ((operandByte s k).toNat : Int) - 256 else (operandByte s k).toNat)

/-- Memories in the model's canonical form (log entry 8, DESIGN CHOICE) that read alike are the same list. -/
def Obligations.CanonicalMemoriesAreEqual : Prop :=
  ∀ (m m' : Memory), m.wf = true → m'.wf = true → (∀ a, m.read a = m'.read a) → m = m'

/-! ### Data movement -/

/-- 41_data_movement.md R172 with R151, R153, R173 and R175: each of the eight moves, with its four immediate bytes in
memory, completes: its register gets the immediate (the low three bytes of it where `IMM32_BYTES = 3`), `eip` is 5
more modulo 2^32, and the halt-at-zero test runs. -/
def Obligations.MovWritesRegisterAndAdvances : Prop :=
  ∀ (imm : Word) (s : State), s.eip.toNat + 4 < s.cfg.memorySize →
    let v := movedValue s.cfg.imm32Bytes imm
    let next := BitVec.ofNat 32 ((s.eip.toNat + 5) % 2 ^ 32)
    exec (.movEax imm) s = .next (haltIfZero { s with regs := { s.regs with eax := v }, eip := next }) ∧
    exec (.movEcx imm) s = .next (haltIfZero { s with regs := { s.regs with ecx := v }, eip := next }) ∧
    exec (.movEdx imm) s = .next (haltIfZero { s with regs := { s.regs with edx := v }, eip := next }) ∧
    exec (.movEbx imm) s = .next (haltIfZero { s with regs := { s.regs with ebx := v }, eip := next }) ∧
    exec (.movEsp imm) s = .next (haltIfZero { s with regs := { s.regs with esp := v }, eip := next }) ∧
    exec (.movEbp imm) s = .next (haltIfZero { s with regs := { s.regs with ebp := v }, eip := next }) ∧
    exec (.movEsi imm) s = .next (haltIfZero { s with regs := { s.regs with esi := v }, eip := next }) ∧
    exec (.movEdi imm) s = .next (haltIfZero { s with regs := { s.regs with edi := v }, eip := next })

/-- 41_data_movement.md R174 with 60_exceptions.md R203: past the guard, a move whose immediate passes the top of
memory enters the fatal fault, recording the capacity as the first bad address, in both `IMM32_BYTES` modes. -/
def Obligations.MovCutOffFaults : Prop :=
  ∀ (r : Reg) (imm : Word) (s : State), s.eip.toNat < s.cfg.memorySize → s.cfg.memorySize ≤ s.eip.toNat + 4 →
    ∃ t, exec (movInstr r imm) s = .next t ∧ FaultedFrom s t s.cfg.memorySize (movOp r)

/-- The frame of the eight moves, faulted states left aside (60_exceptions.md R205): every register but the move's own,
the flags, the configuration, the trace and every byte of memory are unchanged; the run state and its record change
only by the halt at zero. -/
def Obligations.MovFrame : Prop :=
  ∀ (r : Reg) (imm : Word) (s t : State), exec (movInstr r imm) s = .next t → t.run ≠ .faultOutOfBounds →
    (∀ r', r' ≠ r → t.regs.get r' = s.regs.get r') ∧ t.eflags = s.eflags ∧ t.trace = s.trace ∧ HaltFrame s t ∧
    ∀ a, t.mem.read a = s.mem.read a

/-! ### Control transfer -/

/-- 42_control_transfer.md R182 with R151, R153 and R183: the jump with its displacement byte in memory completes:
`eip` is `(eip + d + 2) mod 2^32`, with no check of the target, nothing else changes, and the halt-at-zero test runs. -/
def Obligations.JmpSetsTarget : Prop :=
  ∀ (disp : Byte) (s : State), s.eip.toNat + 1 < s.cfg.memorySize →
    exec (.jmpRel8 disp) s = .next (haltIfZero { s with eip := jumpTarget s.eip disp })

/-- 42_control_transfer.md R184 with 60_exceptions.md R203: the jump as the last byte of memory enters the fatal
fault, recording the capacity. -/
def Obligations.JmpCutOffFaults : Prop :=
  ∀ (disp : Byte) (s : State), s.eip.toNat < s.cfg.memorySize → s.cfg.memorySize ≤ s.eip.toNat + 1 →
    ∃ t, exec (.jmpRel8 disp) s = .next t ∧ FaultedFrom s t s.cfg.memorySize 0xEB#8

/-- The frame of the jump, faulted states left aside (60_exceptions.md R205): no register, flag, trace event or byte of
memory changes. -/
def Obligations.JmpFrame : Prop :=
  ∀ (disp : Byte) (s t : State), exec (.jmpRel8 disp) s = .next t → t.run ≠ .faultOutOfBounds →
    (∀ r, t.regs.get r = s.regs.get r) ∧ t.eflags = s.eflags ∧ t.trace = s.trace ∧ HaltFrame s t ∧
    ∀ a, t.mem.read a = s.mem.read a

/-! ### The step -/

/-- When the bytes at `eip` decode to an instruction, a step past the guard is that instruction's meaning in the state
with the trace event appended; the step adds nothing else (40_instruction_cycle.md R141, R142, R152, R160). -/
def Obligations.StepRunsTheDecodedInstruction : Prop :=
  ∀ (s : State) (i : Instr) (rest : List Byte), s.run = .running → s.eip.toNat < s.cfg.memorySize →
    decode [operandByte s 0, operandByte s 1, operandByte s 2, operandByte s 3, operandByte s 4] = .ok (i, rest) →
    step s = exec i (traced s)

/-- 40_instruction_cycle.md R131: a step begins only while the core runs, and first tests the guard. -/
def Obligations.StepGuardExit : Prop :=
  ∀ s : State,
    (s.run ≠ .running → ∀ t, step s ≠ .next t) ∧
    (s.run = .running → s.cfg.memorySize ≤ s.eip.toNat →
      step s = .next { s with run := .haltedEipOutOfRange, haltInfo := some (.eipOutOfRange s.eip) })

/-- 40_instruction_cycle.md R146: the lookup miss, at address 0 and in the last byte of memory too. -/
def Obligations.StepLookupMiss : Prop :=
  ∀ s : State, s.run = .running → s.eip.toNat < s.cfg.memorySize → lookup (s.mem.read s.eip.toNat) = none →
    step s = .next { traced s with
      run := .haltedUnimplemented, haltInfo := some (.unimplemented (s.mem.read s.eip.toNat) s.eip) }

/-- 41_data_movement.md R171 and R172, from the bytes in memory: the step on opcode `0xB8 + r` reads its immediate
(30_encoding.md R106), writes it to `R[r]`, advances by 5 and tests for zero (40_instruction_cycle.md R153; the cleared
record of that halt is DEDUCED, log entry 9). If the read raises, the core enters the fatal fault (60_exceptions.md
R203) and the recorded address is `memory_size`, which 41_data_movement.md R174 derives. In both cases the event is
appended (40_instruction_cycle.md R142). -/
def Obligations.StepOnMovOpcode : Prop :=
  ∀ (s : State) (r : Reg), s.run = .running → s.eip.toNat < s.cfg.memorySize → s.mem.read s.eip.toNat = movOp r →
    (s.eip.toNat + 4 < s.cfg.memorySize →
      step s = .next (haltIfZero { traced s with
        regs := s.regs.set r (immediateOf s.cfg.imm32Bytes (operandByte s 1) (operandByte s 2) (operandByte s 3)
          (operandByte s 4))
        eip := BitVec.ofNat 32 ((s.eip.toNat + 5) % 2 ^ 32) })) ∧
    (s.cfg.memorySize ≤ s.eip.toNat + 4 →
      ∃ t, step s = .next t ∧ FaultedFrom (traced s) t s.cfg.memorySize (movOp r))

/-- 42_control_transfer.md R182, from the bytes in memory: the step on opcode 0xEB jumps and tests for zero
(40_instruction_cycle.md R153; the cleared record of that halt is DEDUCED, log entry 9). If the read raises, the core
enters the fatal fault (60_exceptions.md R203) and the recorded address is `memory_size`, which 42_control_transfer.md
R184 derives. In both cases the event is appended (40_instruction_cycle.md R142). -/
def Obligations.StepOnJmpOpcode : Prop :=
  ∀ s : State, s.run = .running → s.eip.toNat < s.cfg.memorySize → s.mem.read s.eip.toNat = 0xEB#8 →
    (s.eip.toNat + 1 < s.cfg.memorySize →
      step s = .next (haltIfZero { traced s with eip := jumpTarget s.eip (operandByte s 1) })) ∧
    (s.cfg.memorySize ≤ s.eip.toNat + 1 →
      ∃ t, step s = .next t ∧ FaultedFrom (traced s) t s.cfg.memorySize 0xEB#8)

/-- 10_state.md R46: from a terminal run state no step is enabled, and a run from it goes nowhere. That `step` answers
the fault `noStepEnabled` there is the model's choice (log entry 6, DESIGN CHOICE): R46 says only that there is no
step. -/
def Obligations.TerminalStatesArePermanent : Prop :=
  ∀ s : State, s.run ≠ .running → step s = .fault .noStepEnabled ∧ ∀ t, Reaches s t → t = s

/-- 40_instruction_cycle.md R161: a step exists exactly from the running states, and it never refuses. -/
def Obligations.StepIsTotalWhileRunning : Prop :=
  ∀ s : State, ((∃ t, step s = .next t) ↔ s.run = .running) ∧ ∀ why, step s ≠ .refused why

/-- 40_instruction_cycle.md R160: the machine's step is the spec's, written with handlers that read their operands
through the decoder's ports. The premise on `haltInfo` is 10_state.md R45, kept by `StepKeepsTheInvariants`. Where the
step faults, this compares the registers, `eip` and `eflags` of a faulted state as well (log entry 5, DEDUCED): those
values are the two step functions', and no claim about the reference may use them (60_exceptions.md R205). -/
def Obligations.StepIsTheSpecsCycle : Prop :=
  ∀ s : State, s.run = .running → s.haltInfo = none → step s = .next s.cycle

/-- 40_instruction_cycle.md R142: a step past the guard appends one event to the trace, whatever happens after the
lookup, and a guard exit appends none (R131). -/
def Obligations.StepAppendsOneEvent : Prop :=
  ∀ s t : State, step s = .next t →
    (s.eip.toNat < s.cfg.memorySize → t.trace = s.trace ++
      [{ address := s.eip, opcode := s.mem.read s.eip.toNat, target := lookup (s.mem.read s.eip.toNat) }]) ∧
    (s.cfg.memorySize ≤ s.eip.toNat → t.trace = s.trace)

/-- 60_exceptions.md R208: which run state a step ends in, in the order of priority. -/
def Obligations.StepOutcomeByPriority : Prop :=
  ∀ s t : State, step s = .next t →
    let op := s.mem.read s.eip.toNat
    let inside := s.eip.toNat < s.cfg.memorySize
    let cutOff := ∃ len, encodedLength op = some len ∧ s.cfg.memorySize < s.eip.toNat + len
    (t.run = .haltedEipOutOfRange ↔ ¬inside) ∧
    (t.run = .haltedUnimplemented ↔ inside ∧ lookup op = none) ∧
    (t.run = .faultOutOfBounds ↔ inside ∧ cutOff) ∧
    (t.run = .haltedAtZero ↔ inside ∧ lookup op ≠ none ∧ ¬cutOff ∧ t.eip = 0x00000000#32) ∧
    (t.run = .running ↔ inside ∧ lookup op ≠ none ∧ ¬cutOff ∧ t.eip ≠ 0x00000000#32)

/-- 60_exceptions.md R204: in every fault the recorded address is the capacity, and the instruction is an assigned one
whose operand bytes pass the top of memory. -/
def Obligations.FaultAddressIsTheCapacity : Prop :=
  ∀ s t : State, step s = .next t → t.run = .faultOutOfBounds →
    t.haltInfo = some (.outOfBounds s.cfg.memorySize s.eip (s.mem.read s.eip.toNat)) ∧
    ∃ len, encodedLength (s.mem.read s.eip.toNat) = some len ∧ s.eip.toNat < s.cfg.memorySize ∧
      s.cfg.memorySize < s.eip.toNat + len

/-- 20_memory.md R73: no instruction writes memory; the configuration is fixed (00_scope.md R8). -/
def Obligations.StepWritesNoMemory : Prop :=
  ∀ s t : State, step s = .next t → (∀ a, t.mem.read a = s.mem.read a) ∧ t.cfg = s.cfg

/-- 10_state.md R32 and R34: a step that does not fault changes at most one register, the one its move opcode names,
and that one it sets. -/
def Obligations.StepWritesAtMostItsRegister : Prop :=
  ∀ s t : State, step s = .next t → t.run ≠ .faultOutOfBounds → ∀ r,
    (t.regs.get r ≠ s.regs.get r → s.mem.read s.eip.toNat = movOp r) ∧
    (s.eip.toNat < s.cfg.memorySize → s.mem.read s.eip.toNat = movOp r →
      t.regs.get r = immediateOf s.cfg.imm32Bytes (operandByte s 1) (operandByte s 2) (operandByte s 3)
        (operandByte s 4))

/-- 10_state.md R31: no instruction reads a general register: whatever the registers held, the step ends in the same
run state with the same record and trace and, where it does not fault, does the same to everything else and writes the
same value to the same register. -/
def Obligations.StepReadsNoRegister : Prop :=
  ∀ (s t : State) (rf : RegFile), step s = .next t →
    ∃ t', step { s with regs := rf } = .next t' ∧ SameReport t t' ∧
      (t.run ≠ .faultOutOfBounds → { t' with regs := t.regs } = t ∧
        ∀ r, t'.regs.get r = if s.eip.toNat < s.cfg.memorySize ∧ s.mem.read s.eip.toNat = movOp r
          then t.regs.get r else rf.get r)

/-- 10_state.md R40: no instruction reads or writes `eflags`. -/
def Obligations.StepLeavesFlagsAlone : Prop :=
  ∀ (s t : State) (f : Word), step s = .next t →
    ∃ t', step { s with eflags := f } = .next t' ∧ SameReport t t' ∧
      (t.run ≠ .faultOutOfBounds → t.eflags = s.eflags ∧ t' = { t with eflags := f })

/-- 30_encoding.md R108 and R110 with 20_memory.md R79: a step depends on no byte of memory but its instruction's own;
for an unassigned opcode, on the opcode byte alone. -/
def Obligations.StepReadsOnlyItsOwnBytes : Prop :=
  ∀ (s t : State) (m : Memory), step s = .next t →
    (∀ k, k < (encodedLength (s.mem.read s.eip.toNat)).getD 1 →
      m.read (s.eip.toNat + k) = s.mem.read (s.eip.toNat + k)) →
    ∃ t', step { s with mem := m } = .next t' ∧ SameReport t t' ∧
      (t.run ≠ .faultOutOfBounds → t' = { t with mem := m })

/-- 41_data_movement.md R175: where three immediate bytes are assembled, registers below 2^24 stay below 2^24. -/
def Obligations.ThreeByteModeKeepsTopBytesZero : Prop :=
  ∀ s t : State, s.cfg.imm32Bytes = .three → (∀ r, (s.regs.get r).toNat < 2 ^ 24) → step s = .next t →
    t.run ≠ .faultOutOfBounds → ∀ r, (t.regs.get r).toNat < 2 ^ 24

/-! ### Loading, reset and runs -/

/-- 70_reset_and_hazards.md R236: the load. That memory is canonical, the premise and the conclusion `m.wf`, is the
model's choice of how to hold memory (log entry 8, DESIGN CHOICE) and no part of R236; it is so at construction. -/
def Obligations.LoadPlacesThePrefixOrFails : Prop :=
  ∀ (s : State), s.mem.wf = true →
    s.loadImage none = .error .readError ∧
    ∀ img : List Byte,
      let n := img.length
      let len := match s.cfg.loadLimit with
        | some m => min n m
        | none => n
      let base := s.cfg.loadAddress
      (0 < len ∧ s.cfg.memorySize < base + len →
        s.loadImage (some img) = .error (.imageOutOfBounds (max base s.cfg.memorySize))) ∧
      (len = 0 ∨ base + len ≤ s.cfg.memorySize →
        ∃ m : Memory, s.loadImage (some img) = .ok { s with mem := m } ∧ m.wf = true ∧
          (∀ k, k < len → some (m.read (base + k)) = img[k]?) ∧
          ∀ a, a < base ∨ base + len ≤ a → m.read a = s.mem.read a)

/-- 70_reset_and_hazards.md R231 and R237: the post-load state, for every configuration. -/
def Obligations.PostLoadState : Prop :=
  ∀ (cfg : Cfg) (img : List Byte) (s : State), State.boot cfg (some img) = .ok s →
    (∀ r, s.regs.get r = if r = .esp then cfg.initialStackPointer else 0x00000000#32) ∧
    s.eip = cfg.entryPoint ∧ s.eflags = 0x00000000#32 ∧ s.run = .running ∧ s.haltInfo = none ∧ s.trace = [] ∧
    s.cfg = cfg ∧
    ∀ a, s.mem.read a =
      if cfg.loadAddress ≤ a then ((Cfg.loadedPart cfg img)[a - cfg.loadAddress]?).getD 0x00#8 else 0x00#8

/-- 70_reset_and_hazards.md R238: an entry point in memory but outside the image halts on the unassigned byte 0x00; one
beyond memory is a guard exit. -/
def Obligations.EntryOutsideTheImage : Prop :=
  ∀ (cfg : Cfg) (img : List Byte) (s : State), State.boot cfg (some img) = .ok s →
    (cfg.entryPoint.toNat < cfg.memorySize →
      cfg.entryPoint.toNat < cfg.loadAddress ∨
        cfg.loadAddress + (Cfg.loadedPart cfg img).length ≤ cfg.entryPoint.toNat →
      step s = .next { s with
        run := .haltedUnimplemented
        haltInfo := some (.unimplemented 0x00#8 cfg.entryPoint)
        trace := [{ address := cfg.entryPoint, opcode := 0x00#8, target := none }] }) ∧
    (cfg.memorySize ≤ cfg.entryPoint.toNat →
      step s = .next { s with run := .haltedEipOutOfRange, haltInfo := some (.eipOutOfRange cfg.entryPoint) })

/-- 70_reset_and_hazards.md R238 and R239: the host loads once, before the first step, and steps only after a load that
succeeded and while the core runs. The phases are the model's way to say so (log entry 4). -/
def Obligations.HostProtocol : Prop :=
  ∀ x x' : Session,
    (x.step = .accepted x' → x.phase ≠ .constructed ∧ x.state.run = .running ∧ step x.state = .next x'.state ∧
      ∀ img, x'.load img = .refused .lateLoad) ∧
    (∀ img, x.load img = .accepted x' → x.phase = .constructed ∧ x.state.loadImage img = .ok x'.state ∧
      ∀ img', x'.load img' = .refused .lateLoad) ∧
    (x.phase = .constructed → x.step = .refused .stepBeforeLoad) ∧
    (x.phase ≠ .constructed → x.state.run ≠ .running → x.step = .refused .stepAfterTerminal) ∧
    (x.phase ≠ .constructed → x.state.run = .running → ∃ y, x.step = .accepted y)

/-- The reset state meets the invariant. Its parameter values are the model's choice (log entry 2). -/
def Obligations.ResetMeetsTheInvariants : Prop := State.reset.Inv

/-- Every post-load state meets the invariant, for every configuration in range and every image that loads. -/
def Obligations.LoadedMachinesMeetTheInvariants : Prop :=
  ∀ (cfg : Cfg) (img : Option (List Byte)) (s : State), cfg.wellFormed = true → State.boot cfg img = .ok s → s.Inv

/-- Every step keeps the invariant: the capacity in range, memory canonical and within it, the halt record in
agreement with the run state (10_state.md R45), `eflags` zero (R40), and a faithful trace (R49). -/
def Obligations.StepKeepsTheInvariants : Prop :=
  ∀ s t : State, s.Inv → step s = .next t → t.Inv

/-- 20_memory.md R78: at every point of every run from a load, every address reads the byte the loader left there, or
0x00, and the invariant holds. -/
def Obligations.RunsReadWhatTheLoaderLeft : Prop :=
  ∀ (cfg : Cfg) (img : List Byte) (s t : State), cfg.wellFormed = true → State.boot cfg (some img) = .ok s →
    Reaches s t → t.Inv ∧ ∀ a, t.mem.read a =
      if cfg.loadAddress ≤ a then ((Cfg.loadedPart cfg img)[a - cfg.loadAddress]?).getD 0x00#8 else 0x00#8
end

