-- ==== Sys2Proof/Laws/Decode.lean ====
section
/-! SUPPORT. The dispatch table, the byte order of the immediate and the decoder, said once. -/
namespace Sys2Proof

/-! ### The dispatch table -/

theorem lookup_eq_mov_iff (b : Byte) : lookup b = some .movR32Imm32 ↔ 0xB8#8 ≤ b ∧ b ≤ 0xBF#8 := by
  unfold lookup
  split_ifs <;> simp_all

theorem lookup_eq_jmp_iff (b : Byte) : lookup b = some .jmpRel8 ↔ b = 0xEB#8 := by
  unfold lookup
  split_ifs with h1 h2
  · simp only [Option.some.injEq, reduceCtorEq, false_iff]
    rintro rfl
    exact absurd h1.2 (by decide)
  · simp [h2]
  · simp [h2]

theorem lookup_eq_none_iff (b : Byte) : lookup b = none ↔ ¬(0xB8#8 ≤ b ∧ b ≤ 0xBF#8) ∧ b ≠ 0xEB#8 := by
  unfold lookup
  split_ifs <;> simp_all

/-- The opcode byte of the move to a register (30_encoding.md R105). -/
def movOpcode : Reg → Byte
  | .eax => 0xB8#8
  | .ecx => 0xB9#8
  | .edx => 0xBA#8
  | .ebx => 0xBB#8
  | .esp => 0xBC#8
  | .ebp => 0xBD#8
  | .esi => 0xBE#8
  | .edi => 0xBF#8

theorem movOpcode_injective {r r' : Reg} (h : movOpcode r = movOpcode r') : r = r' := by
  cases r <;> cases r' <;> first | rfl | exact absurd h (by decide)

@[simp] theorem lookup_movOpcode (r : Reg) : lookup (movOpcode r) = some .movR32Imm32 := by
  cases r <;> rfl

@[simp] theorem regField_movOpcode (r : Reg) : regField (movOpcode r) = r := by
  cases r <;> rfl

/-- Every opcode of the move is the opcode of its own register field. -/
theorem movOpcode_regField {b : Byte} (h : lookup b = some .movR32Imm32) : movOpcode (regField b) = b := by
  revert b
  decide

theorem encode_movInstr (r : Reg) (imm : Word) : encode (movInstr r imm) = movOpcode r :: encodeImm imm := by
  cases r <;> rfl

/-! ### Byte order of the immediate field -/

@[simp] theorem immField_byteOf (v : Word) : immField (byteOf v 0) (byteOf v 1) (byteOf v 2) (byteOf v 3) = v := by
  apply BitVec.eq_of_getLsbD_eq
  intro i hi
  simp only [immField, byteOf, BitVec.getLsbD_append, BitVec.getLsbD_extractLsb']
  split_ifs <;> rw [decide_eq_true (show _ < 8 by omega), Bool.true_and] <;> congr 1 <;> omega

theorem byteOf_immField (b1 b2 b3 b4 : Byte) :
    byteOf (immField b1 b2 b3 b4) 0 = b1 ∧ byteOf (immField b1 b2 b3 b4) 1 = b2 ∧
      byteOf (immField b1 b2 b3 b4) 2 = b3 ∧ byteOf (immField b1 b2 b3 b4) 3 = b4 := by
  refine ⟨?_, ?_, ?_, ?_⟩ <;> ext i hi <;>
    simp only [immField, byteOf, BitVec.getElem_extractLsb', BitVec.getLsbD_append] <;>
    split_ifs <;> first | omega | (rw [← BitVec.getLsbD_eq_getElem]; congr 1; omega)

theorem immField_toNat (b1 b2 b3 b4 : Byte) :
    (immField b1 b2 b3 b4).toNat = b1.toNat + b2.toNat * 2 ^ 8 + b3.toNat * 2 ^ 16 + b4.toNat * 2 ^ 24 := by
  have := b1.isLt
  have := b2.isLt
  have := b3.isLt
  have := b4.isLt
  rw [immField, BitVec.toNat_append, BitVec.toNat_append, BitVec.toNat_append,
    ← Nat.shiftLeft_add_eq_or_of_lt b1.isLt, ← Nat.shiftLeft_add_eq_or_of_lt b2.isLt,
    ← Nat.shiftLeft_add_eq_or_of_lt b3.isLt]
  simp only [Nat.shiftLeft_eq]
  omega

/-! ### The decoder -/

theorem decode_unassigned {op : Byte} (h : lookup op = none) (rest : List Byte) :
    decode (op :: rest) = .error (.unassigned op) := by
  unfold decode
  simp only [h]

theorem decode_mov {op : Byte} (h : lookup op = some .movR32Imm32) (b1 b2 b3 b4 : Byte) (rest : List Byte) :
    decode (op :: b1 :: b2 :: b3 :: b4 :: rest) =
      .ok (movInstr (regField op) (immField b1 b2 b3 b4), rest) := by
  unfold decode
  simp only [h]

theorem decode_jmp {op : Byte} (h : lookup op = some .jmpRel8) (b1 : Byte) (rest : List Byte) :
    decode (op :: b1 :: rest) = .ok (.jmpRel8 b1, rest) := by
  unfold decode
  simp only [h]

theorem decode_mov_cutOff {op : Byte} (h : lookup op = some .movR32Imm32) {rest : List Byte} (hr : rest.length < 4) :
    decode (op :: rest) = .error (.cutOff op) := by
  unfold decode
  simp only [h]
  split
  · simp only [List.length_cons] at hr
    omega
  · rfl

theorem decode_jmp_cutOff {op : Byte} (h : lookup op = some .jmpRel8) :
    decode [op] = .error (.cutOff op) := by
  unfold decode
  simp only [h]

/-- What the decoder answers on a list with an opcode byte and at least four more: every case. -/
theorem decode_five (op b1 b2 b3 b4 : Byte) (rest : List Byte) :
    decode (op :: b1 :: b2 :: b3 :: b4 :: rest) =
      match lookup op with
      | none => .error (.unassigned op)
      | some .movR32Imm32 => .ok (movInstr (regField op) (immField b1 b2 b3 b4), rest)
      | some .jmpRel8 => .ok (.jmpRel8 b1, b2 :: b3 :: b4 :: rest) := by
  split
  · exact decode_unassigned ‹_› _
  · exact decode_mov ‹_› ..
  · exact decode_jmp ‹_› ..

end Sys2Proof
end

