-- ==== Sys2Proof/Laws/State.lean ====
section
/-! SUPPORT. One lemma per field per state update, so that no proof unfolds a record update. -/
namespace Sys2Proof.Machine

/-! ### `State.record` -/

@[simp] theorem State.record_cfg (s : State) (op : Byte) :
    (s.record op).cfg = s.cfg := rfl

@[simp] theorem State.record_regs (s : State) (op : Byte) :
    (s.record op).regs = s.regs := rfl

@[simp] theorem State.record_eip (s : State) (op : Byte) :
    (s.record op).eip = s.eip := rfl

@[simp] theorem State.record_eflags (s : State) (op : Byte) :
    (s.record op).eflags = s.eflags := rfl

@[simp] theorem State.record_mem (s : State) (op : Byte) :
    (s.record op).mem = s.mem := rfl

@[simp] theorem State.record_run (s : State) (op : Byte) :
    (s.record op).run = s.run := rfl

@[simp] theorem State.record_haltInfo (s : State) (op : Byte) :
    (s.record op).haltInfo = s.haltInfo := rfl

@[simp] theorem State.record_trace (s : State) (op : Byte) :
    (s.record op).trace = s.trace ++ [{ address := s.eip, opcode := op, target := lookup op }] := rfl

/-! ### `State.halt` -/

@[simp] theorem State.halt_cfg (s : State) (r : RunState) (info : Option HaltInfo) :
    (s.halt r info).cfg = s.cfg := rfl

@[simp] theorem State.halt_regs (s : State) (r : RunState) (info : Option HaltInfo) :
    (s.halt r info).regs = s.regs := rfl

@[simp] theorem State.halt_eip (s : State) (r : RunState) (info : Option HaltInfo) :
    (s.halt r info).eip = s.eip := rfl

@[simp] theorem State.halt_eflags (s : State) (r : RunState) (info : Option HaltInfo) :
    (s.halt r info).eflags = s.eflags := rfl

@[simp] theorem State.halt_mem (s : State) (r : RunState) (info : Option HaltInfo) :
    (s.halt r info).mem = s.mem := rfl

@[simp] theorem State.halt_run (s : State) (r : RunState) (info : Option HaltInfo) :
    (s.halt r info).run = r := rfl

@[simp] theorem State.halt_haltInfo (s : State) (r : RunState) (info : Option HaltInfo) :
    (s.halt r info).haltInfo = info := rfl

@[simp] theorem State.halt_trace (s : State) (r : RunState) (info : Option HaltInfo) :
    (s.halt r info).trace = s.trace := rfl

/-! ### `State.haltEipOutOfRange` -/

@[simp] theorem State.haltEipOutOfRange_cfg (s : State) :
    (s.haltEipOutOfRange).cfg = s.cfg := rfl

@[simp] theorem State.haltEipOutOfRange_regs (s : State) :
    (s.haltEipOutOfRange).regs = s.regs := rfl

@[simp] theorem State.haltEipOutOfRange_eip (s : State) :
    (s.haltEipOutOfRange).eip = s.eip := rfl

@[simp] theorem State.haltEipOutOfRange_eflags (s : State) :
    (s.haltEipOutOfRange).eflags = s.eflags := rfl

@[simp] theorem State.haltEipOutOfRange_mem (s : State) :
    (s.haltEipOutOfRange).mem = s.mem := rfl

@[simp] theorem State.haltEipOutOfRange_run (s : State) :
    (s.haltEipOutOfRange).run = .haltedEipOutOfRange := rfl

@[simp] theorem State.haltEipOutOfRange_haltInfo (s : State) :
    (s.haltEipOutOfRange).haltInfo = some (.eipOutOfRange s.eip) := rfl

@[simp] theorem State.haltEipOutOfRange_trace (s : State) :
    (s.haltEipOutOfRange).trace = s.trace := rfl

/-! ### `State.haltUnimplemented` -/

@[simp] theorem State.haltUnimplemented_cfg (s : State) (op : Byte) :
    (s.haltUnimplemented op).cfg = s.cfg := rfl

@[simp] theorem State.haltUnimplemented_regs (s : State) (op : Byte) :
    (s.haltUnimplemented op).regs = s.regs := rfl

@[simp] theorem State.haltUnimplemented_eip (s : State) (op : Byte) :
    (s.haltUnimplemented op).eip = s.eip := rfl

@[simp] theorem State.haltUnimplemented_eflags (s : State) (op : Byte) :
    (s.haltUnimplemented op).eflags = s.eflags := rfl

@[simp] theorem State.haltUnimplemented_mem (s : State) (op : Byte) :
    (s.haltUnimplemented op).mem = s.mem := rfl

@[simp] theorem State.haltUnimplemented_run (s : State) (op : Byte) :
    (s.haltUnimplemented op).run = .haltedUnimplemented := rfl

@[simp] theorem State.haltUnimplemented_haltInfo (s : State) (op : Byte) :
    (s.haltUnimplemented op).haltInfo = some (.unimplemented op s.eip) := rfl

@[simp] theorem State.haltUnimplemented_trace (s : State) (op : Byte) :
    (s.haltUnimplemented op).trace = s.trace := rfl

/-! ### `State.takeOutOfBounds` -/

@[simp] theorem State.takeOutOfBounds_cfg (s : State) (a : Nat) (op : Byte) :
    (s.takeOutOfBounds a op).cfg = s.cfg := rfl

@[simp] theorem State.takeOutOfBounds_regs (s : State) (a : Nat) (op : Byte) :
    (s.takeOutOfBounds a op).regs = s.regs := rfl

@[simp] theorem State.takeOutOfBounds_eip (s : State) (a : Nat) (op : Byte) :
    (s.takeOutOfBounds a op).eip = s.eip := rfl

@[simp] theorem State.takeOutOfBounds_eflags (s : State) (a : Nat) (op : Byte) :
    (s.takeOutOfBounds a op).eflags = s.eflags := rfl

@[simp] theorem State.takeOutOfBounds_mem (s : State) (a : Nat) (op : Byte) :
    (s.takeOutOfBounds a op).mem = s.mem := rfl

@[simp] theorem State.takeOutOfBounds_run (s : State) (a : Nat) (op : Byte) :
    (s.takeOutOfBounds a op).run = .faultOutOfBounds := rfl

@[simp] theorem State.takeOutOfBounds_haltInfo (s : State) (a : Nat) (op : Byte) :
    (s.takeOutOfBounds a op).haltInfo = some (.outOfBounds a s.eip op) := rfl

@[simp] theorem State.takeOutOfBounds_trace (s : State) (a : Nat) (op : Byte) :
    (s.takeOutOfBounds a op).trace = s.trace := rfl

/-! ### `State.applyEffect` -/

@[simp] theorem State.applyEffect_cfg (s : State) (e : Effect) :
    (s.applyEffect e).cfg = s.cfg := rfl

@[simp] theorem State.applyEffect_regs (s : State) (e : Effect) :
    (s.applyEffect e).regs = s.regs.write e.regWe := rfl

@[simp] theorem State.applyEffect_eip (s : State) (e : Effect) :
    (s.applyEffect e).eip = e.nextEip := rfl

@[simp] theorem State.applyEffect_eflags (s : State) (e : Effect) :
    (s.applyEffect e).eflags = flagsAfter e.flagsWe s.eflags := rfl

@[simp] theorem State.applyEffect_mem (s : State) (e : Effect) :
    (s.applyEffect e).mem = s.mem := rfl

@[simp] theorem State.applyEffect_run (s : State) (e : Effect) :
    (s.applyEffect e).run = s.run := rfl

@[simp] theorem State.applyEffect_haltInfo (s : State) (e : Effect) :
    (s.applyEffect e).haltInfo = s.haltInfo := rfl

@[simp] theorem State.applyEffect_trace (s : State) (e : Effect) :
    (s.applyEffect e).trace = s.trace := rfl

/-! ### `State.construct` -/

@[simp] theorem State.construct_cfg (cfg : Cfg) : (State.construct cfg).cfg = cfg := rfl

@[simp] theorem State.construct_regs (cfg : Cfg) : (State.construct cfg).regs = RegFile.construct cfg.initialStackPointer := rfl

@[simp] theorem State.construct_eip (cfg : Cfg) : (State.construct cfg).eip = cfg.entryPoint := rfl

@[simp] theorem State.construct_eflags (cfg : Cfg) : (State.construct cfg).eflags = 0x00000000#32 := rfl

@[simp] theorem State.construct_mem (cfg : Cfg) : (State.construct cfg).mem = [] := rfl

@[simp] theorem State.construct_run (cfg : Cfg) : (State.construct cfg).run = .running := rfl

@[simp] theorem State.construct_haltInfo (cfg : Cfg) : (State.construct cfg).haltInfo = none := rfl

@[simp] theorem State.construct_trace (cfg : Cfg) : (State.construct cfg).trace = [] := rfl

/-! ### What reads of the state see after an update that keeps memory and `eip` -/

@[simp] theorem State.record_guardOk (s : State) (op : Byte) : (s.record op).guardOk = s.guardOk := rfl

@[simp] theorem State.record_operandFault (s : State) (op : Byte) (n : Nat) :
    (s.record op).operandFault n = s.operandFault n := rfl

theorem State.guardOk_iff (s : State) : s.guardOk = true ↔ s.eip.toNat < s.cfg.memorySize := by
  simp [State.guardOk]

/-! ### Register file -/

@[simp] theorem RegFile.get_set_same (rf : RegFile) (r : Reg) (v : Word) : (rf.set r v).get r = v := by
  cases r <;> rfl

theorem RegFile.get_set_other (rf : RegFile) {r r' : Reg} (v : Word) (h : r' ≠ r) :
    (rf.set r v).get r' = rf.get r' := by
  cases r <;> cases r' <;> first | rfl | exact absurd rfl h

/-- The register file is what its read port shows. -/
theorem RegFile.ext_get {a b : RegFile} (h : ∀ r, a.get r = b.get r) : a = b := by
  cases a
  cases b
  have := h .eax
  have := h .ecx
  have := h .edx
  have := h .ebx
  have := h .esp
  have := h .ebp
  have := h .esi
  have := h .edi
  simp_all [RegFile.get]

@[simp] theorem RegFile.write_none (rf : RegFile) : rf.write none = rf := rfl

@[simp] theorem RegFile.write_some (rf : RegFile) (r : Reg) (v : Word) : rf.write (some (r, v)) = rf.set r v := rfl

@[simp] theorem flagsAfter_none (f : Word) : flagsAfter none f = f := rfl

@[simp] theorem flagsAfter_some (v f : Word) : flagsAfter (some v) f = v := rfl

end Sys2Proof.Machine
end

