-- ==== Sys2Proof/Laws/Memory.lean ====
section
/-! SUPPORT. Memory contents: read after write, the canonical form is kept, and the range check. -/
namespace Sys2Proof.Machine

/-! ### Reads -/

@[simp] theorem Memory.read_nil (a : Nat) : Memory.read [] a = Memory.unlisted := rfl

theorem Memory.read_cons (k : Nat) (v : Byte) (m : Memory) (a : Nat) :
    Memory.read ((k, v) :: m) a = if k = a then v else Memory.read m a := rfl

/-- Nothing is listed below the lowest address of a canonical list. -/
theorem Memory.read_below_wfFrom {lo : Nat} {m : Memory} (h : Memory.wfFrom lo m = true) {a : Nat} (ha : a < lo) :
    Memory.read m a = Memory.unlisted := by
  induction m generalizing lo with
  | nil => rfl
  | cons c m ih =>
    obtain ⟨k, v⟩ := c
    simp only [Memory.wfFrom, Bool.and_eq_true, decide_eq_true_eq] at h
    rw [Memory.read_cons, if_neg (by omega)]
    exact ih h.2 (by omega)

theorem Memory.wfFrom_mono {lo lo' : Nat} {m : Memory} (h : Memory.wfFrom lo m = true) (hle : lo' ≤ lo) :
    Memory.wfFrom lo' m = true := by
  cases m with
  | nil => rfl
  | cons c m =>
    obtain ⟨k, v⟩ := c
    simp only [Memory.wfFrom, Bool.and_eq_true, decide_eq_true_eq] at h ⊢
    exact ⟨⟨by omega, h.1.2⟩, h.2⟩

/-! ### One write -/

/-- A read after a write to a canonical memory. -/
theorem Memory.read_write {lo : Nat} {m : Memory} (h : Memory.wfFrom lo m = true) (a b : Nat) (v : Byte) :
    Memory.read (m.write a v) b = if b = a then v else Memory.read m b := by
  induction m generalizing lo with
  | nil =>
    by_cases hv : v = Memory.unlisted <;> by_cases hb : b = a
    all_goals simp [Memory.write, Memory.read, hv, hb]
    exact fun h => absurd h.symm hb
  | cons c m ih =>
    obtain ⟨k, w⟩ := c
    simp only [Memory.wfFrom, Bool.and_eq_true, decide_eq_true_eq] at h
    have hk := Memory.read_below_wfFrom h.2 (a := k) (by omega)
    unfold Memory.write
    split
    · have ha := Memory.read_below_wfFrom h.2 (a := a) (by omega)
      by_cases hv : v = Memory.unlisted
      · rw [if_pos hv]
        by_cases hb : b = a
        · rw [if_pos hb, hb, hv, Memory.read_cons, if_neg (by omega), ha]
        · rw [if_neg hb]
      · rw [if_neg hv, Memory.read_cons]
        exact if_congr eq_comm rfl rfl
    · split
      · rename_i _ hak
        subst hak
        by_cases hv : v = Memory.unlisted
        · rw [if_pos hv, Memory.read_cons]
          by_cases hb : b = a
          · rw [if_pos hb, hb, hv, hk]
          · rw [if_neg hb, if_neg (Ne.symm hb)]
        · rw [if_neg hv, Memory.read_cons, Memory.read_cons]
          by_cases hb : b = a
          · rw [if_pos hb, if_pos hb.symm]
          · rw [if_neg hb, if_neg (Ne.symm hb), if_neg (Ne.symm hb)]
      · rw [Memory.read_cons, Memory.read_cons, ih h.2]
        split_ifs <;> first | rfl | omega

/-- A write keeps the canonical form. -/
theorem Memory.wfFrom_write {lo : Nat} {m : Memory} (h : Memory.wfFrom lo m = true) {a : Nat} (ha : lo ≤ a) (v : Byte) :
    Memory.wfFrom lo (m.write a v) = true := by
  induction m generalizing lo with
  | nil =>
    by_cases hv : v = Memory.unlisted
    · simp [Memory.write, hv, Memory.wfFrom]
    · simp [Memory.write, hv, Memory.wfFrom, ha]
  | cons c m ih =>
    obtain ⟨k, w⟩ := c
    have h' := h
    simp only [Memory.wfFrom, Bool.and_eq_true, decide_eq_true_eq] at h'
    unfold Memory.write
    split
    · split
      · exact h
      · simp only [Memory.wfFrom, Bool.and_eq_true, decide_eq_true_eq]
        exact ⟨⟨ha, ‹_›⟩, ⟨by omega, h'.1.2⟩, h'.2⟩
    · split
      · rename_i _ hak
        subst hak
        split
        · exact Memory.wfFrom_mono h'.2 (by omega)
        · simp only [Memory.wfFrom, Bool.and_eq_true, decide_eq_true_eq]
          exact ⟨⟨ha, ‹_›⟩, h'.2⟩
      · simp only [Memory.wfFrom, Bool.and_eq_true, decide_eq_true_eq]
        exact ⟨h'.1, ih h'.2 (by omega)⟩

theorem Memory.wf_write {m : Memory} (h : m.wf = true) (a : Nat) (v : Byte) : (m.write a v).wf = true :=
  Memory.wfFrom_write h (Nat.zero_le a) v

theorem Memory.below_write {size : Nat} {m : Memory} (h : Memory.below size m = true) {a : Nat} (ha : a < size)
    (v : Byte) : Memory.below size (m.write a v) = true := by
  induction m with
  | nil => by_cases hv : v = Memory.unlisted <;> simp [Memory.write, Memory.below, hv, ha]
  | cons c m ih =>
    obtain ⟨k, w⟩ := c
    simp only [Memory.below, Bool.and_eq_true, decide_eq_true_eq] at h
    unfold Memory.write
    split_ifs <;> simp [Memory.below, h, ha, ih h.2]

/-! ### Many writes -/

theorem Memory.wf_writeBytes {m : Memory} (h : m.wf = true) (a : Nat) (bytes : List Byte) :
    (m.writeBytes a bytes).wf = true := by
  induction bytes generalizing m a with
  | nil => exact h
  | cons b bs ih => exact ih (Memory.wf_write h a b) (a + 1)

theorem Memory.below_writeBytes {size : Nat} {m : Memory} (h : Memory.below size m = true) {a : Nat}
    {bytes : List Byte} (ha : bytes = [] ∨ a + bytes.length ≤ size) :
    Memory.below size (m.writeBytes a bytes) = true := by
  induction bytes generalizing m a with
  | nil => exact h
  | cons b bs ih =>
    have ha' : a + bs.length + 1 ≤ size := by simpa [Nat.add_assoc] using ha
    exact ih (Memory.below_write h (by omega) b) (Or.inr (by omega))

/-- A read after a bulk write: the written byte inside the range, the old one outside. -/
theorem Memory.read_writeBytes {m : Memory} (h : m.wf = true) (a b : Nat) (bytes : List Byte) :
    Memory.read (m.writeBytes a bytes) b =
      if a ≤ b then (bytes[b - a]?).getD (Memory.read m b) else Memory.read m b := by
  induction bytes generalizing m a with
  | nil => simp [Memory.writeBytes]
  | cons x xs ih =>
    rw [Memory.writeBytes, ih (Memory.wf_write h a x), Memory.read_write h]
    by_cases hlt : a + 1 ≤ b
    · have hd : b - a = (b - (a + 1)) + 1 := by omega
      rw [if_pos hlt, if_pos (show a ≤ b by omega), if_neg (show ¬b = a by omega), hd, List.getElem?_cons_succ]
    · by_cases hab : b = a
      · subst hab
        simp
      · rw [if_neg hlt, if_neg hab, if_neg (show ¬a ≤ b by omega)]

/-! ### The range check -/

/-- The check answers the lowest address at or beyond the capacity. -/
theorem firstOutOfRange_eq (size a n : Nat) :
    firstOutOfRange size a n = if n = 0 ∨ a + n ≤ size then none else some (max a size) := by
  induction n generalizing a with
  | zero => simp [firstOutOfRange]
  | succ n ih =>
    rw [firstOutOfRange, ih]
    by_cases ha : size ≤ a
    · rw [if_pos ha, if_neg (show ¬(n + 1 = 0 ∨ a + (n + 1) ≤ size) by omega), Nat.max_eq_left ha]
    · rw [if_neg ha]
      by_cases hn : n = 0 ∨ a + 1 + n ≤ size
      · rw [if_pos hn, if_pos (show n + 1 = 0 ∨ a + (n + 1) ≤ size by omega)]
      · rw [if_neg hn, if_neg (show ¬(n + 1 = 0 ∨ a + (n + 1) ≤ size) by omega)]
        rw [Nat.max_eq_right (show a + 1 ≤ size by omega), Nat.max_eq_right (show a ≤ size by omega)]

/-- What the bulk write answers: all of the bytes written, or none and the first bad address. -/
theorem Memory.bulkWrite_eq (size : Nat) (m : Memory) (a : Nat) (bytes : List Byte) :
    Memory.bulkWrite size m a bytes =
      if bytes = [] ∨ a + bytes.length ≤ size then .ok (m.writeBytes a bytes) else .error (max a size) := by
  rw [Memory.bulkWrite, firstOutOfRange_eq]
  by_cases h : bytes.length = 0 ∨ a + bytes.length ≤ size
  · simp only [if_pos h]
    rw [if_pos (by simpa using h)]
  · simp only [if_neg h]
    rw [if_neg (by simpa using h)]

/-! ### The empty and the bulk-written memory keep the form -/

theorem Memory.wf_nil : Memory.wf [] = true := rfl

theorem Memory.wf_bulkWrite {size : Nat} {m m' : Memory} {a : Nat} {bytes : List Byte} (h : m.wf = true)
    (hb : Memory.bulkWrite size m a bytes = .ok m') : m'.wf = true := by
  rw [Memory.bulkWrite_eq] at hb
  split at hb
  · cases hb
    exact Memory.wf_writeBytes h a bytes
  · cases hb

theorem State.withFetchWord_wf (s : State) (h : s.mem.wf = true) (nbits w : Nat) :
    (s.withFetchWord nbits w).mem.wf = true :=
  Memory.wf_writeBytes h _ _

theorem State.reset_mem_wf : State.reset.mem.wf = true := rfl

end Sys2Proof.Machine
end

