-- ==== Sys2Proof/Laws/PerInstr.lean ====
section
/-! SUPPORT. Facts about every instruction as syntax, one lemma per constructor. -/

/-- The first byte of an instruction's encoding dispatches to a handler, and the length that byte gives is the length
of the encoding (30_encoding.md R103, R104). -/
def Sys2Proof.Laws.EncodedForm.Statement (i : Sys2Proof.Instr) : Prop :=
  i.wellFormed = true ∧
    ∃ op rest, Sys2Proof.encode i = op :: rest ∧ Sys2Proof.encodedLength op = some (rest.length + 1)

theorem Sys2Proof.Laws.EncodedForm.movEax (imm : Sys2Proof.Word) :
    Sys2Proof.Laws.EncodedForm.Statement (.movEax imm) := ⟨rfl, _, _, rfl, rfl⟩

theorem Sys2Proof.Laws.EncodedForm.movEcx (imm : Sys2Proof.Word) :
    Sys2Proof.Laws.EncodedForm.Statement (.movEcx imm) := ⟨rfl, _, _, rfl, rfl⟩

theorem Sys2Proof.Laws.EncodedForm.movEdx (imm : Sys2Proof.Word) :
    Sys2Proof.Laws.EncodedForm.Statement (.movEdx imm) := ⟨rfl, _, _, rfl, rfl⟩

theorem Sys2Proof.Laws.EncodedForm.movEbx (imm : Sys2Proof.Word) :
    Sys2Proof.Laws.EncodedForm.Statement (.movEbx imm) := ⟨rfl, _, _, rfl, rfl⟩

theorem Sys2Proof.Laws.EncodedForm.movEsp (imm : Sys2Proof.Word) :
    Sys2Proof.Laws.EncodedForm.Statement (.movEsp imm) := ⟨rfl, _, _, rfl, rfl⟩

theorem Sys2Proof.Laws.EncodedForm.movEbp (imm : Sys2Proof.Word) :
    Sys2Proof.Laws.EncodedForm.Statement (.movEbp imm) := ⟨rfl, _, _, rfl, rfl⟩

theorem Sys2Proof.Laws.EncodedForm.movEsi (imm : Sys2Proof.Word) :
    Sys2Proof.Laws.EncodedForm.Statement (.movEsi imm) := ⟨rfl, _, _, rfl, rfl⟩

theorem Sys2Proof.Laws.EncodedForm.movEdi (imm : Sys2Proof.Word) :
    Sys2Proof.Laws.EncodedForm.Statement (.movEdi imm) := ⟨rfl, _, _, rfl, rfl⟩

theorem Sys2Proof.Laws.EncodedForm.jmpRel8 (disp : Sys2Proof.Byte) :
    Sys2Proof.Laws.EncodedForm.Statement (.jmpRel8 disp) := ⟨rfl, _, _, rfl, rfl⟩
end

