-- ==== Sys2Proof/Laws/Step.lean ====
section
/-! SUPPORT. What the shared operations, the meanings and the step can do, said once. -/
namespace Sys2Proof.Machine

/-! ### The operand check -/

/-- Past the guard, an operand check of `n` bytes raises exactly when the last one is at or beyond the capacity, and
then it raises the capacity. -/
theorem State.operandFault_of_guard {s : State} (hg : s.eip.toNat < s.cfg.memorySize) (n : Nat) :
    s.operandFault n = if s.eip.toNat + n < s.cfg.memorySize then none else some s.cfg.memorySize := by
  rw [State.operandFault, firstOutOfRange_eq, Nat.max_eq_right (by omega)]
  by_cases h : s.eip.toNat + n < s.cfg.memorySize
  · rw [if_pos h, if_pos (by omega)]
  · rw [if_neg h, if_neg (by omega)]

theorem State.operandFault_none {s : State} {n : Nat} (h : s.eip.toNat + n < s.cfg.memorySize) :
    s.operandFault n = none := by
  rw [State.operandFault_of_guard (by omega), if_pos h]

/-! ### The handlers -/

@[simp] theorem movHandler_record (r : Reg) (imm : Word) (s : State) (op : Byte) :
    movHandler r imm (s.record op) = movHandler r imm s := rfl

@[simp] theorem jmpHandler_record (d : Byte) (s : State) (op : Byte) :
    jmpHandler d (s.record op) = jmpHandler d s := rfl

theorem movHandler_effect {s : State} (r : Reg) (imm : Word) (h : s.eip.toNat + 4 < s.cfg.memorySize) :
    movHandler r imm s =
      .effect { regWe := some (r, assembleImm32 s.cfg.imm32Bytes imm), flagsWe := none, nextEip := s.eip + 5#32 } := by
  rw [movHandler, State.operandFault_none h]
  rfl

theorem movHandler_fault {s : State} (r : Reg) (imm : Word) (hg : s.eip.toNat < s.cfg.memorySize)
    (h : s.cfg.memorySize ≤ s.eip.toNat + 4) : movHandler r imm s = .fault s.cfg.memorySize := by
  rw [movHandler, State.operandFault_of_guard hg, if_neg (by omega)]

theorem jmpHandler_effect {s : State} (d : Byte) (h : s.eip.toNat + 1 < s.cfg.memorySize) :
    jmpHandler d s = .effect { regWe := none, flagsWe := none, nextEip := s.eip + sext32 d + 2#32 } := by
  rw [jmpHandler, State.operandFault_none h]

theorem jmpHandler_fault {s : State} (d : Byte) (hg : s.eip.toNat < s.cfg.memorySize)
    (h : s.cfg.memorySize ≤ s.eip.toNat + 1) : jmpHandler d s = .fault s.cfg.memorySize := by
  rw [jmpHandler, State.operandFault_of_guard hg, if_neg (by omega)]

/-! ### The commit: what it never touches, and everything it can do -/

@[simp] theorem State.testZero_cfg (s : State) : s.testZero.cfg = s.cfg := by
  unfold State.testZero; split <;> rfl

@[simp] theorem State.testZero_mem (s : State) : s.testZero.mem = s.mem := by
  unfold State.testZero; split <;> rfl

@[simp] theorem State.testZero_regs (s : State) : s.testZero.regs = s.regs := by
  unfold State.testZero; split <;> rfl

@[simp] theorem State.testZero_eip (s : State) : s.testZero.eip = s.eip := by
  unfold State.testZero; split <;> rfl

@[simp] theorem State.testZero_eflags (s : State) : s.testZero.eflags = s.eflags := by
  unfold State.testZero; split <;> rfl

@[simp] theorem State.testZero_trace (s : State) : s.testZero.trace = s.trace := by
  unfold State.testZero; split <;> rfl

theorem State.testZero_run (s : State) :
    s.testZero.run = if s.eip = 0x00000000#32 then .haltedAtZero else s.run := by
  unfold State.testZero; split <;> rfl

theorem State.testZero_haltInfo (s : State) :
    s.testZero.haltInfo = if s.eip = 0x00000000#32 then none else s.haltInfo := by
  unfold State.testZero; split <;> rfl

@[simp] theorem State.commit_fault (s : State) (op : Byte) (a : Nat) :
    s.commit op (.fault a) = s.takeOutOfBounds a op := rfl

@[simp] theorem State.commit_effect (s : State) (op : Byte) (e : Effect) :
    s.commit op (.effect e) = (s.applyEffect e).testZero := rfl

@[simp] theorem State.commit_cfg (s : State) (op : Byte) (out : HandlerOut) : (s.commit op out).cfg = s.cfg := by
  cases out <;> simp

@[simp] theorem State.commit_mem (s : State) (op : Byte) (out : HandlerOut) : (s.commit op out).mem = s.mem := by
  cases out <;> simp

@[simp] theorem State.commit_trace (s : State) (op : Byte) (out : HandlerOut) : (s.commit op out).trace = s.trace := by
  cases out <;> simp

theorem finish_eq (op : Byte) (out : HandlerOut) (s : State) : finish op out s = .next (s.commit op out) := rfl

/-! ### The meanings -/

/-- The eight moves are one handler, each with its own register and opcode. -/
theorem exec_movInstr (r : Reg) (imm : Word) (s : State) :
    exec (movInstr r imm) s = .next (s.commit (movOpcode r) (movHandler r imm s)) := by
  cases r <;> rfl

theorem exec_jmpRel8 (d : Byte) (s : State) :
    exec (.jmpRel8 d) s = .next (s.commit 0xEB#8 (jmpHandler d s)) := rfl

/-- Every instruction is a move to some register or the jump. -/
theorem Instr.cases_mov_jmp (i : Instr) : (∃ r imm, i = movInstr r imm) ∨ ∃ d, i = .jmpRel8 d := by
  cases i with
  | movEax imm => exact .inl ⟨.eax, imm, rfl⟩
  | movEcx imm => exact .inl ⟨.ecx, imm, rfl⟩
  | movEdx imm => exact .inl ⟨.edx, imm, rfl⟩
  | movEbx imm => exact .inl ⟨.ebx, imm, rfl⟩
  | movEsp imm => exact .inl ⟨.esp, imm, rfl⟩
  | movEbp imm => exact .inl ⟨.ebp, imm, rfl⟩
  | movEsi imm => exact .inl ⟨.esi, imm, rfl⟩
  | movEdi imm => exact .inl ⟨.edi, imm, rfl⟩
  | jmpRel8 d => exact .inr ⟨d, rfl⟩

/-! ### Fetch -/

/-- The fetched instruction, by the dispatch table's entry. -/
theorem State.fetchInstr_eq (s : State) :
    s.fetchInstr =
      match lookup s.opcode with
      | none => none
      | some .movR32Imm32 =>
        some (movInstr (regField s.opcode) (immField (s.byteAt 1) (s.byteAt 2) (s.byteAt 3) (s.byteAt 4)))
      | some .jmpRel8 => some (.jmpRel8 (s.byteAt 1)) := by
  rw [State.fetchInstr, State.fetchWindow, decode_five]
  change (match (match lookup s.opcode with
    | none => Except.error (.unassigned s.opcode)
    | some .movR32Imm32 => _
    | some .jmpRel8 => _ : Except DecodeError (Instr × List Byte)) with
    | .ok (i, _) => some i
    | .error _ => none) = _
  rcases lookup s.opcode with _ | ⟨⟨⟩⟩ <;> rfl

/-! ### The step -/

/-- A step past the guard, before the fetched instruction is known. -/
theorem step_of_guard {s : State} (hr : s.run = .running) (hg : s.eip.toNat < s.cfg.memorySize) :
    step s =
      match s.fetchInstr with
      | none => .next ((s.record s.opcode).haltUnimplemented s.opcode)
      | some i => exec i (s.record s.opcode) := by
  have hg' : ¬s.guardOk = false := by simpa [State.guardOk] using hg
  unfold step
  exact (if_neg (not_not.mpr hr)).trans (if_neg hg')

/-- Everything a step can do. -/
theorem step_cases {s t : State} (h : step s = .next t) :
    s.run = .running ∧
      ((s.cfg.memorySize ≤ s.eip.toNat ∧ t = s.haltEipOutOfRange) ∨
        (s.eip.toNat < s.cfg.memorySize ∧ lookup s.opcode = none ∧
          t = (s.record s.opcode).haltUnimplemented s.opcode) ∨
        (s.eip.toNat < s.cfg.memorySize ∧ lookup s.opcode = some .movR32Imm32 ∧
          t = (s.record s.opcode).commit s.opcode (movHandler (regField s.opcode)
            (immField (s.byteAt 1) (s.byteAt 2) (s.byteAt 3) (s.byteAt 4)) s)) ∨
        (s.eip.toNat < s.cfg.memorySize ∧ lookup s.opcode = some .jmpRel8 ∧
          t = (s.record s.opcode).commit s.opcode (jmpHandler (s.byteAt 1) s))) := by
  unfold step at h
  split at h
  · cases h
  · rename_i hrun
    refine ⟨not_not.mp hrun, ?_⟩
    split at h
    · rename_i hg
      cases h
      exact .inl ⟨by simpa [State.guardOk] using hg, rfl⟩
    · rename_i hg
      have hg' : s.eip.toNat < s.cfg.memorySize := by simpa [State.guardOk] using hg
      rw [State.fetchInstr_eq] at h
      rcases hl : lookup s.opcode with _ | ⟨⟨⟩⟩
      · simp only [hl] at h
        cases h
        exact .inr (.inl ⟨hg', rfl, rfl⟩)
      · simp only [hl, exec_movInstr, movOpcode_regField hl, movHandler_record] at h
        cases h
        exact .inr (.inr (.inl ⟨hg', rfl, rfl⟩))
      · simp only [hl, exec_jmpRel8, jmpHandler_record] at h
        cases h
        exact .inr (.inr (.inr ⟨hg', rfl, by rw [(lookup_eq_jmp_iff _).mp hl]⟩))

end Sys2Proof.Machine
end

