-- ==== Sys2Proof/Machine/Codes.lean ====
section
/-! DEFINITION. The spec's own numeric codes (D16): run states (10_state.md R44), stopping conditions
(60_exceptions.md R200, R201) and dispatch selects (40_instruction_cycle.md R140). -/
namespace Sys2Proof.Machine

/-- The code of a run state (10_state.md R44). -/
def RunState.code : RunState → Nat
  | .running => 0
  | .haltedUnimplemented => 1
  | .haltedAtZero => 2
  | .haltedEipOutOfRange => 3
  | .faultOutOfBounds => 4

/-- Terminal run states: every one but `Running` (10_state.md R44, R46). -/
def RunState.terminal : RunState → Bool
  | .running => false
  | .haltedUnimplemented => true
  | .haltedAtZero => true
  | .haltedEipOutOfRange => true
  | .faultOutOfBounds => true

/-- Fatal run states (10_state.md R44): the others that stop are normal halts. -/
def RunState.fatal : RunState → Bool
  | .running => false
  | .haltedUnimplemented => false
  | .haltedAtZero => false
  | .haltedEipOutOfRange => false
  | .faultOutOfBounds => true

/-- The stopping conditions of 60_exceptions.md R201; `loadFailure` arises in the host, before any run. -/
inductive StopCause where
  | unimplementedOpcode
  | haltedAtZero
  | haltedEipOutOfRange
  | outOfBoundsAccess
  | loadFailure
  deriving DecidableEq, Repr

/-- The cause code (60_exceptions.md R201). -/
def StopCause.code : StopCause → Nat
  | .unimplementedOpcode => 1
  | .haltedAtZero => 2
  | .haltedEipOutOfRange => 3
  | .outOfBoundsAccess => 4
  | .loadFailure => 5

/-- The condition behind a terminal run state (60_exceptions.md R201). -/
def RunState.cause : RunState → Option StopCause
  | .running => none
  | .haltedUnimplemented => some .unimplementedOpcode
  | .haltedAtZero => some .haltedAtZero
  | .haltedEipOutOfRange => some .haltedEipOutOfRange
  | .faultOutOfBounds => some .outOfBoundsAccess

/-- The select code `sel` of a dispatch entry (40_instruction_cycle.md R140). -/
def selectCode : Option HandlerId → Nat
  | none => 0
  | some .movR32Imm32 => 1
  | some .jmpRel8 => 2

end Sys2Proof.Machine
end

