-- ==== Sys2Proof/Tests/Slice0.lean ====
section
/-! SUPPORT. Tests against the spec's vectors (95_test_vectors.md, named in each comment), words written out from the
encodings, the ill-formed term, and a witness for the hypotheses of each statement. -/
namespace Sys2Proof.Tests
open Sys2Proof.Machine Sys2Proof.Claims

/-! ### Small machines -/

/-- A configuration with image and entry at `entry`. -/
def cfgAt (size : Nat) (entry : Word) (n : Imm32Bytes) : Cfg where
  memorySize := size
  entryPoint := entry
  initialStackPointer := 0x00008000#32
  loadAddress := entry.toNat
  loadLimit := none
  imm32Bytes := n

/-- A machine with the bytes at its entry point. -/
def machineAt (size : Nat) (entry : Word) (n : Imm32Bytes) (bytes : List Byte) : State :=
  { State.construct (cfgAt size entry n) with mem := Memory.writeBytes [] entry.toNat bytes }

/-- A test on the state after one step. -/
def after (s : State) (p : State → Bool) : Bool :=
  match step s with
  | .next t => p t
  | .fault _ => false
  | .refused _ => false

/-! ### Well-formedness -/

theorem test_wf_refuses_oversized_memory : Cfg.wellFormed (cfgAt (2 ^ 32 + 1) 0#32 .four) = false := by decide

theorem test_wf_accepts_largest_memory : Cfg.wellFormed (cfgAt (2 ^ 32) 0#32 .four) = true := by decide

theorem test_wf_instr : Instr.wellFormed (.jmpRel8 0x80#8) = true := by decide

/-! ### Decoding: a word per constructor, from formats OI and D8 (30_encoding.md R101, R102, R105) -/

/-- `10111 000` and the bytes `78 56 34 12`. -/
theorem test_decode_mov_eax :
    decode [0b10111000#8, 0x78#8, 0x56#8, 0x34#8, 0x12#8] = .ok (.movEax 0x12345678#32, []) := rfl

/-- `10111 001`. -/
theorem test_decode_mov_ecx :
    decode [0b10111001#8, 0x01#8, 0x00#8, 0x00#8, 0x80#8] = .ok (.movEcx 0x80000001#32, []) := rfl

/-- `10111 010`; L3-P3. -/
theorem test_decode_mov_edx :
    decode [0b10111010#8, 0x01#8, 0x02#8, 0x03#8, 0x04#8] = .ok (.movEdx 0x04030201#32, []) := rfl

/-- `10111 011`. -/
theorem test_decode_mov_ebx :
    decode [0b10111011#8, 0xFF#8, 0x00#8, 0x00#8, 0x00#8] = .ok (.movEbx 0x000000FF#32, []) := rfl

/-- `10111 100`; L2-M6. -/
theorem test_decode_mov_esp :
    decode [0b10111100#8, 0x00#8, 0x10#8, 0x00#8, 0x00#8] = .ok (.movEsp 0x00001000#32, []) := rfl

/-- `10111 101`. -/
theorem test_decode_mov_ebp :
    decode [0b10111101#8, 0x00#8, 0x00#8, 0xAB#8, 0x00#8] = .ok (.movEbp 0x00AB0000#32, []) := rfl

/-- `10111 110`. -/
theorem test_decode_mov_esi :
    decode [0b10111110#8, 0x00#8, 0xCD#8, 0x00#8, 0x00#8] = .ok (.movEsi 0x0000CD00#32, []) := rfl

/-- `10111 111`. -/
theorem test_decode_mov_edi :
    decode [0b10111111#8, 0xEB#8, 0xFE#8, 0xEB#8, 0xFE#8] = .ok (.movEdi 0xFEEBFEEB#32, []) := rfl

/-- `1110 1011` and the byte `80`; the byte after it is left. -/
theorem test_decode_jmp : decode [0b11101011#8, 0x80#8, 0xB8#8] = .ok (.jmpRel8 0x80#8, [0xB8#8]) := rfl

theorem test_decode_rejects_escape : decode [0x0F#8, 0xB8#8, 1#8, 0#8, 0#8, 0#8] = .error (.unassigned 0x0F#8) := rfl

theorem test_decode_cut_off : decode [0xB8#8, 0x11#8, 0x22#8, 0x33#8] = .error (.cutOff 0xB8#8) := rfl

/-- The fourteen opcodes of the dispatch row of 95_test_vectors.md, and their select codes (R140). -/
theorem test_dispatch_boundaries :
    ([0x00#8, 0x0F#8, 0x90#8, 0xB7#8, 0xB8#8, 0xBB#8, 0xBF#8, 0xC0#8, 0xCC#8, 0xEA#8, 0xEB#8, 0xEC#8, 0xF4#8,
      0xFF#8].map fun b => selectCode (lookup b)) = [0, 0, 0, 0, 1, 1, 1, 0, 0, 0, 2, 0, 0, 0] := by decide

/-- An opcode-table word of a row's own bits, and one with its operand bits. -/
theorem test_table_words :
    ([0xB8, 0xB9, 0xBA, 0xBB, 0xBC, 0xBD, 0xBE, 0xBF, 0xEB].map (decodeTableWord 8)) =
        [some (.movEax 0), some (.movEcx 0), some (.movEdx 0), some (.movEbx 0), some (.movEsp 0), some (.movEbp 0),
          some (.movEsi 0), some (.movEdi 0), some (.jmpRel8 0)] ∧
      decodeTableWord 40 0x12345678B9 = some (.movEcx 0x12345678#32) ∧
      decodeTableWord 16 0xFEEB = some (.jmpRel8 0xFE#8) ∧ decodeTableWord 8 0x90 = none := by decide

/-- The word placed at the reset state's `eip` is what its next step runs. -/
theorem test_fetch_word_runs :
    (after (State.reset.withFetchWord 40 0x12345678B9) fun t =>
      decide (t.regs.ecx = 0x12345678#32 ∧ t.eip = 5#32 ∧ t.run = .running)) = true := by decide

/-! ### One step on each move -/

/-- L2-M7: operand bytes equal to opcodes are not dispatched. -/
theorem test_mov_eax : (after (machineAt 0x100 0#32 .four [0xB8#8, 0xEB#8, 0xFE#8, 0xEB#8, 0xFE#8]) fun t =>
    decide (t.regs.eax = 0xFEEBFEEB#32 ∧ t.eip = 5#32 ∧ t.run = .running ∧
      t.trace = [⟨0#32, 0xB8#8, some .movR32Imm32⟩])) = true := by decide

/-- L2-M3, m3. -/
theorem test_mov_eax_three : (after (machineAt 0x100 0#32 .three [0xB8#8, 0xFF#8, 0xFF#8, 0xFF#8, 0xFF#8]) fun t =>
    decide (t.regs.eax = 0x00FFFFFF#32 ∧ t.eip = 5#32)) = true := by decide

/-- L2-M1, B9. -/
theorem test_mov_ecx : (after (machineAt 0x100 0#32 .four [0xB9#8, 0x78#8, 0x56#8, 0x34#8, 0x12#8]) fun t =>
    decide (t.regs.ecx = 0x12345678#32 ∧ t.regs.eax = 0#32)) = true := by decide

/-- L2-M1, B9, m3. -/
theorem test_mov_ecx_three : (after (machineAt 0x100 0#32 .three [0xB9#8, 0x78#8, 0x56#8, 0x34#8, 0x12#8]) fun t =>
    decide (t.regs.ecx = 0x00345678#32)) = true := by decide

/-- L3-P3, BA. -/
theorem test_mov_edx : (after (machineAt 0x100 7#32 .four [0xBA#8, 0x01#8, 0x02#8, 0x03#8, 0x04#8]) fun t =>
    decide (t.regs.edx = 0x04030201#32 ∧ t.eip = 0x0C#32)) = true := by decide

/-- L2-M5, second step, m3: the old bits 31:24 are not kept. -/
theorem test_mov_ebx_three : (after
    { machineAt 0x100 5#32 .three [0xBB#8, 0x01#8, 0x00#8, 0x00#8, 0x00#8] with
      regs := (RegFile.construct 0#32).set .ebx 0xFF00FFFF#32 } fun t =>
    decide (t.regs.ebx = 1#32 ∧ t.eip = 0x0A#32)) = true := by decide

/-- L2-M6. -/
theorem test_mov_esp : (after (machineAt 0x100 0#32 .four [0xBC#8, 0x00#8, 0x10#8, 0x00#8, 0x00#8]) fun t =>
    decide (t.regs.esp = 0x00001000#32)) = true := by decide

/-- L2-M11: the advance wraps to 0 and halts there, with the register written. -/
theorem test_mov_esp_wraps : (after (machineAt (2 ^ 32) 0xFFFFFFFB#32 .four
    [0xBC#8, 0x78#8, 0x56#8, 0x34#8, 0x12#8]) fun t =>
    decide (t.regs.esp = 0x12345678#32 ∧ t.eip = 0#32 ∧ t.run = .haltedAtZero ∧ t.haltInfo = none)) = true := by decide

/-- L2-M1, BD. -/
theorem test_mov_ebp : (after (machineAt 0x100 0#32 .four [0xBD#8, 0x78#8, 0x56#8, 0x34#8, 0x12#8]) fun t =>
    decide (t.regs.ebp = 0x12345678#32 ∧ t.regs.esp = 0x00008000#32)) = true := by decide

/-- L2-M1, BE. -/
theorem test_mov_esi : (after (machineAt 0x100 0#32 .four [0xBE#8, 0x78#8, 0x56#8, 0x34#8, 0x12#8]) fun t =>
    decide (t.regs.esi = 0x12345678#32 ∧ t.regs.edi = 0#32)) = true := by decide

/-- L2-M1, BF. -/
theorem test_mov_edi : (after (machineAt 0x100 0#32 .four [0xBF#8, 0x78#8, 0x56#8, 0x34#8, 0x12#8]) fun t =>
    decide (t.regs.edi = 0x12345678#32 ∧ t.regs.esi = 0#32)) = true := by decide

/-- L2-M10: the last byte of memory. -/
theorem test_mov_edi_cut_off : (after (machineAt 8 7#32 .four [0xBF#8]) fun t =>
    decide (t.run = .faultOutOfBounds ∧ t.haltInfo = some (.outOfBounds 8 7#32 0xBF#8))) = true := by decide

/-- L2-M9, m3: the fourth byte is checked there too, and the event stays. -/
theorem test_mov_checks_fourth_byte : (after (machineAt 4 0#32 .three [0xB8#8, 1#8, 2#8, 3#8]) fun t =>
    decide (t.run = .faultOutOfBounds ∧ t.haltInfo = some (.outOfBounds 4 0#32 0xB8#8) ∧
      t.trace = [⟨0#32, 0xB8#8, some .movR32Imm32⟩])) = true := by decide

/-- L2-M12: the operand address does not wrap. -/
theorem test_operand_address_does_not_wrap : (after (machineAt (2 ^ 32) 0xFFFFFFFC#32 .four [0xB8#8]) fun t =>
    decide (t.haltInfo = some (.outOfBounds 0x100000000 0xFFFFFFFC#32 0xB8#8))) = true := by decide

/-! ### One step on the jump, the miss and the guard -/

/-- L2-J5: backward out of memory; the target is not checked. -/
theorem test_jmp_backward : (after (machineAt 0x100 0x20#32 .four [0xEB#8, 0x80#8]) fun t =>
    decide (t.eip = 0xFFFFFFA2#32 ∧ t.run = .running ∧ t.trace = [⟨0x20#32, 0xEB#8, some .jmpRel8⟩])) = true := by
  decide

/-- L2-J11: the upward wrap. -/
theorem test_jmp_forward_wraps : (after (machineAt (2 ^ 32) 0xFFFFFFF0#32 .four [0xEB#8, 0x7F#8]) fun t =>
    decide (t.eip = 0x00000071#32 ∧ t.run = .running)) = true := by decide

/-- L2-J7: a jump to itself at 0 halts. -/
theorem test_jmp_to_zero_halts : (after (machineAt 0x100 0#32 .four [0xEB#8, 0xFE#8]) fun t =>
    decide (t.eip = 0#32 ∧ t.run = .haltedAtZero ∧ t.haltInfo = none)) = true := by decide

/-- L2-J10. -/
theorem test_jmp_cut_off : (after (machineAt 0x21 0x20#32 .four [0xEB#8]) fun t =>
    decide (t.run = .faultOutOfBounds ∧ t.haltInfo = some (.outOfBounds 0x21 0x20#32 0xEB#8))) = true := by decide

/-- L2-F1: a miss at address 0 is not a halt at zero. -/
theorem test_miss_at_zero : (after (machineAt 0x100 0#32 .four []) fun t =>
    decide (t.run = .haltedUnimplemented ∧ t.haltInfo = some (.unimplemented 0#8 0#32) ∧ t.eip = 0#32 ∧
      t.trace = [⟨0#32, 0#8, none⟩])) = true := by decide

/-- L2-F7: a miss in the last byte of memory does not fault. -/
theorem test_miss_in_last_byte : (after (machineAt 4 3#32 .four []) fun t =>
    decide (t.run = .haltedUnimplemented)) = true := by decide

/-- L2-F3: no memory at all. -/
theorem test_guard_with_no_memory : (after (machineAt 0 0#32 .four []) fun t =>
    decide (t.run = .haltedEipOutOfRange ∧ t.haltInfo = some (.eipOutOfRange 0#32) ∧ t.trace = [])) = true := by decide

/-! ### Loading and codes -/

/-- Memory after a load, or why it failed. -/
def loadResult (size address : Nat) (limit : Option Nat) (img : Option (List Byte)) : LoadFailure ⊕ Memory :=
  match State.boot { cfgAt size 0#32 .four with loadAddress := address, loadLimit := limit } img with
  | .ok s => .inr s.mem
  | .error e => .inl e

/-- L2-E1 to L2-E6. -/
theorem test_loads :
    loadResult 8 6 none (some [0xB8#8, 1#8, 2#8]) = .inl (.imageOutOfBounds 8) ∧
    loadResult 8 5 none (some [0xB8#8, 1#8, 2#8]) = .inr [(5, 0xB8#8), (6, 1#8), (7, 2#8)] ∧
    loadResult 8 6 (some 2) (some [0xB8#8, 1#8, 2#8]) = .inr [(6, 0xB8#8), (7, 1#8)] ∧
    loadResult 8 9 none (some []) = .inr [] ∧
    loadResult 8 9 none (some [0#8]) = .inl (.imageOutOfBounds 9) ∧
    loadResult 8 6 none none = .inl .readError := by decide

/-- Writing what an unlisted address reads as takes the entry out. -/
theorem test_zero_write_removes_entry : Memory.write [(1, 5#8), (2, 6#8)] 1 0#8 = [(2, 6#8)] := by decide

/-- 10_state.md R44 and 60_exceptions.md R201. -/
theorem test_codes :
    ([RunState.running, .haltedUnimplemented, .haltedAtZero, .haltedEipOutOfRange, .faultOutOfBounds].map
      fun r => (r.code, r.terminal, r.fatal, r.cause.map StopCause.code)) =
    [(0, false, false, none), (1, true, false, some 1), (2, true, false, some 2), (3, true, false, some 3),
      (4, true, true, some 4)] ∧ StopCause.loadFailure.code = 5 := by decide

/-- The reset state is the post-load state of the empty image (log entry 3). -/
theorem test_reset_is_an_empty_load : State.boot resetConfig (some []) = .ok State.reset := rfl

/-- The dump of a faulted state is not to be relied on (10_state.md R53). -/
theorem test_dump_consistency :
    (State.reset.dumpConsistent, (State.reset.takeOutOfBounds 1 0xEB#8).dumpConsistent) = (true, false) := by decide

/-! ### Witnesses: states and operands that meet each statement's hypotheses, at the edges of its clauses -/

/-- A running machine whose move ends exactly at the top of memory. -/
def movFits : State := machineAt 5 0#32 .four [0xB8#8, 1#8, 2#8, 3#8, 4#8]

/-- A running machine whose move passes the top of memory by one byte. -/
def movCut : State := machineAt 4 0#32 .four [0xB8#8, 1#8, 2#8, 3#8]

/-- A running machine whose jump ends exactly at the top of memory. -/
def jmpFits : State := machineAt 2 0#32 .four [0xEB#8, 5#8]

/-- A running machine whose jump passes the top of memory. -/
def jmpCut : State := machineAt 1 0#32 .four [0xEB#8]

/-- A running machine at an unassigned opcode. -/
def missAt : State := machineAt 1 0#32 .four [0x90#8]

/-- A running machine whose `eip` is the capacity. -/
def guardAt : State := machineAt 1 1#32 .four []

theorem witness_EncodeOfDecode : decode [0xEB#8, 5#8] = .ok (.jmpRel8 5#8, []) := rfl

theorem witness_LengthFromOpcodeAlone :
    encodedLength 0xB8#8 = some 5 ∧ ([1#8, 2#8, 3#8].length + 1 < 5 ∧ 5 ≤ [1#8, 2#8, 3#8, 4#8].length + 1) ∧
      encodedLength 0xEB#8 = some 2 ∧ (([] : List Byte).length + 1 < 2 ∧ 2 ≤ [1#8].length + 1) := by decide

theorem witness_RegisterFieldOfMove :
    (0xB8 ≤ (0xB8#8).toNat ∧ (0xB8#8).toNat ≤ 0xBF) ∧ (0xB8 ≤ (0xBF#8).toNat ∧ (0xBF#8).toNat ≤ 0xBF) := by decide

theorem witness_ByteReadChecksCapacity : movFits.cfg.memorySize ≤ 5 ∧ 4 < movFits.cfg.memorySize := by decide

theorem witness_MultiByteReadIsLittleEndian :
    1 ≤ 4 ∧ 1 + 4 ≤ movFits.cfg.memorySize ∧ movFits.cfg.memorySize < 2 + 4 := by decide

theorem witness_ImmediateReadChecksFourBytes :
    movFits.cfg.memorySize < movFits.eip.toNat + 2 + 4 ∧ movFits.eip.toNat + 1 + 4 ≤ movFits.cfg.memorySize ∧
      movFits.cfg.imm32Bytes = .four ∧ (machineAt 5 0#32 .three []).cfg.imm32Bytes = .three := by decide

theorem witness_DisplacementReadIsSigned :
    jmpFits.cfg.memorySize ≤ jmpFits.eip.toNat + 2 ∧ jmpFits.eip.toNat + 1 < jmpFits.cfg.memorySize := by decide

theorem witness_CanonicalMemoriesAreEqual :
    Memory.wf [(1, 5#8), (2, 6#8)] = true ∧ Memory.wf (Memory.writeBytes [] 1 [5#8, 6#8]) = true ∧
      ∀ a, Memory.read [(1, 5#8), (2, 6#8)] a = Memory.read (Memory.writeBytes [] 1 [5#8, 6#8]) a :=
  ⟨by decide, by decide, fun _ => rfl⟩

theorem witness_MovWritesRegisterAndAdvances : movFits.eip.toNat + 4 < movFits.cfg.memorySize := by decide

theorem witness_MovCutOffFaults :
    (movCut.eip.toNat < movCut.cfg.memorySize ∧ movCut.cfg.memorySize ≤ movCut.eip.toNat + 4) ∧
      ((machineAt 8 7#32 .four []).eip.toNat < 8 ∧ 8 ≤ (machineAt 8 7#32 .four []).eip.toNat + 4) := by decide

theorem witness_MovFrame :
    ∃ t, exec (movInstr .edi 7#32) movFits = .next t ∧ t.run ≠ .faultOutOfBounds :=
  ⟨_, rfl, by decide⟩

theorem witness_JmpSetsTarget : jmpFits.eip.toNat + 1 < jmpFits.cfg.memorySize := by decide

theorem witness_JmpCutOffFaults :
    jmpCut.eip.toNat < jmpCut.cfg.memorySize ∧ jmpCut.cfg.memorySize ≤ jmpCut.eip.toNat + 1 := by decide

theorem witness_JmpFrame : ∃ t, exec (.jmpRel8 5#8) jmpFits = .next t ∧ t.run ≠ .faultOutOfBounds :=
  ⟨_, rfl, by decide⟩

theorem witness_StepRunsTheDecodedInstruction :
    movFits.run = .running ∧ movFits.eip.toNat < movFits.cfg.memorySize ∧
      decode [operandByte movFits 0, operandByte movFits 1, operandByte movFits 2, operandByte movFits 3,
        operandByte movFits 4] = .ok (.movEax 0x04030201#32, []) :=
  ⟨rfl, by decide, rfl⟩

theorem witness_StepGuardExit :
    guardAt.haltEipOutOfRange.run ≠ .running ∧
      (guardAt.run = .running ∧ guardAt.cfg.memorySize ≤ guardAt.eip.toNat) := by decide

theorem witness_StepLookupMiss :
    missAt.run = .running ∧ missAt.eip.toNat < missAt.cfg.memorySize ∧
      lookup (missAt.mem.read missAt.eip.toNat) = none := by decide

theorem witness_StepOnMovOpcode :
    (movFits.run = .running ∧ movFits.mem.read movFits.eip.toNat = movOp .eax ∧
      movFits.eip.toNat + 4 < movFits.cfg.memorySize) ∧
    (movCut.run = .running ∧ movCut.eip.toNat < movCut.cfg.memorySize ∧
      movCut.mem.read movCut.eip.toNat = movOp .eax ∧ movCut.cfg.memorySize ≤ movCut.eip.toNat + 4) := by decide

theorem witness_StepOnJmpOpcode :
    (jmpFits.run = .running ∧ jmpFits.mem.read jmpFits.eip.toNat = 0xEB#8 ∧
      jmpFits.eip.toNat + 1 < jmpFits.cfg.memorySize) ∧
    (jmpCut.run = .running ∧ jmpCut.eip.toNat < jmpCut.cfg.memorySize ∧
      jmpCut.mem.read jmpCut.eip.toNat = 0xEB#8 ∧ jmpCut.cfg.memorySize ≤ jmpCut.eip.toNat + 1) := by decide

theorem witness_TerminalStatesArePermanent : guardAt.haltEipOutOfRange.run ≠ .running := by decide

theorem witness_StepIsTheSpecsCycle : movFits.run = .running ∧ movFits.haltInfo = none := by decide

/-- A step of each kind, for the statements whose hypothesis is that a step answers a next state. -/
theorem witness_StepAnswersNext :
    (∃ t, step movFits = .next t ∧ t.run ≠ .faultOutOfBounds) ∧
    (∃ t, step jmpFits = .next t ∧ t.run ≠ .faultOutOfBounds) ∧
    (∃ t, step missAt = .next t ∧ t.run ≠ .faultOutOfBounds) ∧
    (∃ t, step guardAt = .next t ∧ t.run ≠ .faultOutOfBounds) :=
  ⟨⟨_, rfl, by decide⟩, ⟨_, rfl, by decide⟩, ⟨_, rfl, by decide⟩, ⟨_, rfl, by decide⟩⟩

theorem witness_StepAppendsOneEvent :
    (∃ t, step movFits = .next t) ∧ movFits.eip.toNat < movFits.cfg.memorySize ∧
      (∃ t, step guardAt = .next t) ∧ guardAt.cfg.memorySize ≤ guardAt.eip.toNat :=
  ⟨⟨_, rfl⟩, by decide, ⟨_, rfl⟩, by decide⟩

theorem witness_StepOutcomeByPriority :
    (∃ t, step movFits = .next t ∧ t.run = .running) ∧ (∃ t, step guardAt = .next t ∧ t.run = .haltedEipOutOfRange) ∧
      (∃ t, step missAt = .next t ∧ t.run = .haltedUnimplemented) ∧
      (∃ t, step jmpCut = .next t ∧ t.run = .faultOutOfBounds) ∧
      ∃ t, step (machineAt 0x100 0#32 .four [0xEB#8, 0xFE#8]) = .next t ∧ t.run = .haltedAtZero :=
  ⟨⟨_, rfl, rfl⟩, ⟨_, rfl, rfl⟩, ⟨_, rfl, rfl⟩, ⟨_, rfl, rfl⟩, ⟨_, rfl, rfl⟩⟩

theorem witness_FaultAddressIsTheCapacity : ∃ t, step movCut = .next t ∧ t.run = .faultOutOfBounds := ⟨_, rfl, rfl⟩

theorem witness_StepWritesNoMemory : ∃ t, step movFits = .next t := ⟨_, rfl⟩

/-- Both clauses: EAX changes, and the opcode is the move to it. -/
theorem witness_StepWritesAtMostItsRegister :
    ∃ t, step movFits = .next t ∧ t.run ≠ .faultOutOfBounds ∧ t.regs.get .eax ≠ movFits.regs.get .eax ∧
      movFits.eip.toNat < movFits.cfg.memorySize ∧ movFits.mem.read movFits.eip.toNat = movOp .eax :=
  ⟨_, rfl, by decide, by decide, by decide, by decide⟩

theorem witness_StepReadsNoRegister : ∃ t, step movFits = .next t ∧ t.run ≠ .faultOutOfBounds :=
  ⟨_, rfl, by decide⟩

theorem witness_StepLeavesFlagsAlone : ∃ t, step jmpFits = .next t ∧ t.run ≠ .faultOutOfBounds :=
  ⟨_, rfl, by decide⟩

/-- Another memory that agrees on the jump's two bytes and not on the next. -/
theorem witness_StepReadsOnlyItsOwnBytes :
    (∃ t, step jmpFits = .next t ∧ t.run ≠ .faultOutOfBounds) ∧
      ∀ k, k < (encodedLength (jmpFits.mem.read jmpFits.eip.toNat)).getD 1 →
        Memory.read [(0, 0xEB#8), (1, 5#8), (2, 9#8)] (jmpFits.eip.toNat + k) =
          jmpFits.mem.read (jmpFits.eip.toNat + k) :=
  ⟨⟨_, rfl, by decide⟩, by decide⟩

theorem witness_ThreeByteModeKeepsTopBytesZero :
    ∃ t, (machineAt 5 0#32 .three [0xB8#8, 1#8, 2#8, 3#8, 4#8]).cfg.imm32Bytes = .three ∧
      (∀ r, ((machineAt 5 0#32 .three [0xB8#8, 1#8, 2#8, 3#8, 4#8]).regs.get r).toNat < 2 ^ 24) ∧
      step (machineAt 5 0#32 .three [0xB8#8, 1#8, 2#8, 3#8, 4#8]) = .next t ∧ t.run ≠ .faultOutOfBounds :=
  ⟨_, rfl, by intro r; cases r <;> decide, rfl, by decide⟩

theorem witness_LoadPlacesThePrefixOrFails :
    (State.construct (cfgAt 8 6#32 .four)).mem.wf = true ∧ (0 < 3 ∧ (cfgAt 8 6#32 .four).memorySize < 6 + 3) ∧
      (0 < 2 ∧ 6 + 2 ≤ (cfgAt 8 6#32 .four).memorySize) := by decide

theorem witness_PostLoadState : ∃ s, State.boot (cfgAt 8 6#32 .four) (some [1#8, 2#8]) = .ok s := ⟨_, rfl⟩

/-- The first clause after the image's end and before its start, and the second. -/
theorem witness_EntryOutsideTheImage :
    (∃ s, State.boot { cfgAt 8 2#32 .four with loadAddress := 0 } (some [1#8, 2#8]) = .ok s) ∧ (2#32).toNat < 8 ∧
      0 + 2 ≤ (2#32).toNat ∧
    (∃ s, State.boot { cfgAt 8 1#32 .four with loadAddress := 2 } (some [1#8]) = .ok s) ∧ (1#32).toNat < 2 ∧
    (∃ s, State.boot { cfgAt 8 8#32 .four with loadAddress := 0 } (some [1#8]) = .ok s) ∧ 8 ≤ (8#32).toNat :=
  ⟨⟨_, rfl⟩, by decide, by decide, ⟨_, rfl⟩, by decide, ⟨_, rfl⟩, by decide⟩

/-- A session loaded, then stepped, then stopped; and one not loaded. -/
theorem witness_HostProtocol :
    (∃ x', Session.step { phase := .loaded, state := movFits } = .accepted x') ∧
      (∃ x', Session.load (Session.construct (cfgAt 8 0#32 .four)) (some [1#8]) = .accepted x') ∧
      Phase.stepping ≠ Phase.constructed ∧ guardAt.haltEipOutOfRange.run ≠ .running ∧ movFits.run = .running :=
  ⟨⟨_, rfl⟩, ⟨_, rfl⟩, by decide, by decide, rfl⟩

theorem witness_LoadedMachinesMeetTheInvariants :
    ∃ s, Cfg.wellFormed (cfgAt 8 6#32 .four) = true ∧ State.boot (cfgAt 8 6#32 .four) (some [1#8]) = .ok s :=
  ⟨_, rfl, rfl⟩

theorem witness_StepKeepsTheInvariants : ∃ t, movFits.Inv ∧ step movFits = .next t :=
  ⟨_, ⟨by decide, by decide, by decide, trivial, fun _ => rfl, fun e he => by cases he⟩, rfl⟩

theorem witness_RunsReadWhatTheLoaderLeft :
    ∃ s t, Cfg.wellFormed (cfgAt 8 0#32 .four) = true ∧ State.boot (cfgAt 8 0#32 .four) (some [0xEB#8, 5#8]) = .ok s ∧
      Reaches s t ∧ t.eip = 7#32 :=
  ⟨_, _, rfl, rfl, Reaches.step Reaches.refl rfl, rfl⟩

end Sys2Proof.Tests
end

section
/-! SUPPORT. Scope (00_scope.md R8, 20_memory.md R73): what no step changes. -/
namespace Sys2Proof.Machine

/-- The memory contents are the same list, not only read alike, so canonical form and bounds carry over too. -/
theorem step_keeps_mem_cfg {s t : State} (h : step s = .next t) : t.mem = s.mem ∧ t.cfg = s.cfg := by
  obtain ⟨-, ⟨-, rfl⟩ | ⟨-, -, rfl⟩ | ⟨-, -, rfl⟩ | ⟨-, -, rfl⟩⟩ := step_cases h
  case inl => -- the guard exit
    exact ⟨s.haltEipOutOfRange_mem, s.haltEipOutOfRange_cfg⟩
  case inr.inl => -- the lookup miss
    simp only [State.haltUnimplemented_mem, State.haltUnimplemented_cfg, State.record_mem, State.record_cfg, and_self]
  case inr.inr.inl | inr.inr.inr => -- the move and the jump, whether the handler faulted or not
    simp only [State.commit_mem, State.commit_cfg, State.record_mem, State.record_cfg, and_self]

/-- Settles O29, from what a step can do: no halt, no trace event and no commit touches memory or `cfg`. -/
theorem stepWritesNoMemory : Obligations.StepWritesNoMemory := by
  intro s t h
  obtain ⟨hmem, hcfg⟩ := step_keeps_mem_cfg h
  exact ⟨fun a => congrArg (Memory.read · a) hmem, hcfg⟩

end Sys2Proof.Machine
end

section
/-! SUPPORT. What a step ends in once its handler has run (40_instruction_cycle.md R160), and the forward direction of
`step_cases`: the rules that the statements about the step's effect on the state go through. -/
namespace Sys2Proof.Machine
open Sys2Proof.Claims

/-! ### The opcode and the operand in the claims' own spelling -/

/-- The claims' formula `0xB8 + r` is the table of the decoder's laws. -/
theorem movOp_eq_movOpcode (r : Reg) : movOp r = movOpcode r := by
  cases r <;> rfl

theorem lookup_movOp (r : Reg) : lookup (movOp r) = some .movR32Imm32 := by
  rw [movOp_eq_movOpcode, lookup_movOpcode]

theorem eq_movOp_iff_regField {op : Byte} (h : lookup op = some .movR32Imm32) (r : Reg) :
    op = movOp r ↔ r = regField op := by
  rw [movOp_eq_movOpcode]
  constructor
  · rintro rfl
    exact (regField_movOpcode r).symm
  · rintro rfl
    exact (movOpcode_regField h).symm

/-- Each bit of the immediate field comes from the one byte that holds it (30_encoding.md R101). -/
theorem getLsbD_immField (b1 b2 b3 b4 : Byte) (i : Nat) :
    (immField b1 b2 b3 b4).getLsbD i =
      (b1.getLsbD i || !decide (i < 8) && b2.getLsbD (i - 8) || !decide (i < 16) && b3.getLsbD (i - 16) ||
        !decide (i < 24) && b4.getLsbD (i - 24)) := by
  simp only [immField, BitVec.getLsbD_append]
  split_ifs <;> grind

/-- Assembling the decoder's field is R106's formula on the four bytes (30_encoding.md R106). -/
theorem assembleImm32_immField (n : Imm32Bytes) (b1 b2 b3 b4 : Byte) :
    assembleImm32 n (immField b1 b2 b3 b4) = immediateOf n b1 b2 b3 b4 := by
  apply BitVec.eq_of_getLsbD_eq
  intro i hi
  cases n with
  | four =>
    rw [assembleImm32, getLsbD_immField]
    simp [immediateOf, hi]
  | three =>
    simp only [assembleImm32, BitVec.getLsbD_setWidth, BitVec.getLsbD_extractLsb', Nat.zero_add, getLsbD_immField]
    by_cases h24 : i < 24
    · simp [immediateOf, hi, h24]
    · simp [immediateOf, hi, h24, b1.getLsbD_of_ge i (by omega), b2.getLsbD_of_ge (i - 8) (by omega),
        b3.getLsbD_of_ge (i - 16) (by omega)]

/-! ### The handlers, whether or not the guard held -/

theorem movHandler_cases (r : Reg) (imm : Word) (s : State) :
    (∃ bad, movHandler r imm s = .fault bad) ∨
      movHandler r imm s = .effect
        { regWe := some (r, assembleImm32 s.cfg.imm32Bytes imm), flagsWe := none, nextEip := s.eip + 5#32 } := by
  unfold movHandler
  split
  · exact .inl ⟨_, rfl⟩
  · exact .inr rfl

theorem jmpHandler_cases (d : Byte) (s : State) :
    (∃ bad, jmpHandler d s = .fault bad) ∨
      jmpHandler d s = .effect { regWe := none, flagsWe := none, nextEip := s.eip + sext32 d + 2#32 } := by
  unfold jmpHandler
  split
  · exact .inl ⟨_, rfl⟩
  · exact .inr rfl

/-! ### The step, forwards -/

theorem step_of_guardExit {s : State} (hr : s.run = .running) (hg : s.cfg.memorySize ≤ s.eip.toNat) :
    step s = .next s.haltEipOutOfRange := by
  have hg' : s.guardOk = false := by simpa [State.guardOk] using hg
  rw [step, if_neg (not_not.mpr hr), if_pos hg']

theorem step_of_miss {s : State} (hr : s.run = .running) (hg : s.eip.toNat < s.cfg.memorySize)
    (hl : lookup s.opcode = none) : step s = .next ((s.record s.opcode).haltUnimplemented s.opcode) := by
  rw [step_of_guard hr hg, State.fetchInstr_eq, hl]

theorem step_of_mov {s : State} (hr : s.run = .running) (hg : s.eip.toNat < s.cfg.memorySize)
    (hl : lookup s.opcode = some .movR32Imm32) :
    step s = .next ((s.record s.opcode).commit s.opcode (movHandler (regField s.opcode)
      (immField (s.byteAt 1) (s.byteAt 2) (s.byteAt 3) (s.byteAt 4)) s)) := by
  rw [step_of_guard hr hg, State.fetchInstr_eq, hl]
  simp only [exec_movInstr, movOpcode_regField hl, movHandler_record]

theorem step_of_jmp {s : State} (hr : s.run = .running) (hg : s.eip.toNat < s.cfg.memorySize)
    (hl : lookup s.opcode = some .jmpRel8) :
    step s = .next ((s.record s.opcode).commit s.opcode (jmpHandler (s.byteAt 1) s)) := by
  rw [step_of_guard hr hg, State.fetchInstr_eq, hl]
  simp only [exec_jmpRel8, jmpHandler_record, (lookup_eq_jmp_iff _).mp hl]

/-! ### What a step ends in -/

/-- The handler at `eip` completes with this effect record (41_data_movement.md R172; 42_control_transfer.md R182). -/
inductive State.Completes (s : State) : Effect → Prop where
  | mov : lookup s.opcode = some .movR32Imm32 → s.eip.toNat + 4 < s.cfg.memorySize →
      s.Completes
        { regWe := some (regField s.opcode, assembleImm32 s.cfg.imm32Bytes
            (immField (s.byteAt 1) (s.byteAt 2) (s.byteAt 3) (s.byteAt 4)))
          flagsWe := none
          nextEip := s.eip + 5#32 }
  | jmp : lookup s.opcode = some .jmpRel8 → s.eip.toNat + 1 < s.cfg.memorySize →
      s.Completes { regWe := none, flagsWe := none, nextEip := s.eip + sext32 (s.byteAt 1) + 2#32 }

/-- The four ways a step from a running state ends (40_instruction_cycle.md R160): the two handlers share the way they
fault and the way they complete. -/
inductive State.EndsIn (s : State) : State → Prop where
  | guardExit : s.cfg.memorySize ≤ s.eip.toNat → s.EndsIn s.haltEipOutOfRange
  | miss : s.eip.toNat < s.cfg.memorySize → lookup s.opcode = none →
      s.EndsIn ((s.record s.opcode).haltUnimplemented s.opcode)
  | fault {len : Nat} : s.eip.toNat < s.cfg.memorySize → encodedLength s.opcode = some len →
      s.cfg.memorySize < s.eip.toNat + len →
      s.EndsIn ((s.record s.opcode).takeOutOfBounds s.cfg.memorySize s.opcode)
  | complete {e : Effect} : s.Completes e → s.EndsIn ((s.record s.opcode).applyEffect e).testZero

/-- The two lengths, each with its handler (30_encoding.md R103). -/
theorem encodedLength_eq_some_iff (op : Byte) (len : Nat) :
    encodedLength op = some len ↔
      lookup op = some .movR32Imm32 ∧ len = 5 ∨ lookup op = some .jmpRel8 ∧ len = 2 := by
  rw [encodedLength]
  rcases lookup op with _ | ⟨⟨⟩⟩ <;> simp [eq_comm]

theorem endsIn_of_step {s t : State} (h : step s = .next t) : s.EndsIn t := by
  obtain ⟨-, ⟨hg, rfl⟩ | ⟨hg, hl, rfl⟩ | ⟨hg, hl, rfl⟩ | ⟨hg, hl, rfl⟩⟩ := step_cases h
  case inl => exact .guardExit hg
  case inr.inl => exact .miss hg hl
  case inr.inr.inl => -- the move
    by_cases hfit : s.eip.toNat + 4 < s.cfg.memorySize
    · rw [movHandler_effect _ _ hfit]
      exact .complete (.mov hl hfit)
    · rw [movHandler_fault _ _ hg (by omega)]
      exact .fault hg ((encodedLength_eq_some_iff ..).mpr (.inl ⟨hl, rfl⟩)) (by omega)
  case inr.inr.inr => -- the jump
    by_cases hfit : s.eip.toNat + 1 < s.cfg.memorySize
    · rw [jmpHandler_effect _ hfit]
      exact .complete (.jmp hl hfit)
    · rw [jmpHandler_fault _ hg (by omega)]
      exact .fault hg ((encodedLength_eq_some_iff ..).mpr (.inr ⟨hl, rfl⟩)) (by omega)

theorem step_of_endsIn {s t : State} (hr : s.run = .running) (h : s.EndsIn t) : step s = .next t := by
  cases h with
  | guardExit hg => exact step_of_guardExit hr hg
  | miss hg hl => exact step_of_miss hr hg hl
  | fault hg hlen hcut =>
    obtain ⟨hl, rfl⟩ | ⟨hl, rfl⟩ := (encodedLength_eq_some_iff ..).mp hlen
    · rw [step_of_mov hr hg hl, movHandler_fault _ _ hg (by omega), State.commit_fault]
    · rw [step_of_jmp hr hg hl, jmpHandler_fault _ hg (by omega), State.commit_fault]
  | complete he =>
    cases he with
    | mov hl hfit => rw [step_of_mov hr (by omega) hl, movHandler_effect _ _ hfit, State.commit_effect]
    | jmp hl hfit => rw [step_of_jmp hr (by omega) hl, jmpHandler_effect _ hfit, State.commit_effect]

/-- A step answers a next state exactly from a running state, and then the one it ends in. -/
theorem step_eq_next_iff (s t : State) : step s = .next t ↔ s.run = .running ∧ s.EndsIn t :=
  ⟨fun h => ⟨(step_cases h).1, endsIn_of_step h⟩, fun ⟨hr, h⟩ => step_of_endsIn hr h⟩

/-! ### What a completing handler does to each part of the state -/

theorem State.Completes.flagsWe_eq_none {s : State} {e : Effect} (h : s.Completes e) : e.flagsWe = none := by
  cases h <;> rfl

theorem State.Completes.guard {s : State} {e : Effect} (h : s.Completes e) : s.eip.toNat < s.cfg.memorySize := by
  cases h <;> omega

/-- The register write of the handler at `eip`, read through any register file it is applied to. -/
theorem State.Completes.get_write {s : State} {e : Effect} (h : s.Completes e) (rf : RegFile) (r : Reg) :
    (rf.write e.regWe).get r =
      if s.opcode = movOp r then
        immediateOf s.cfg.imm32Bytes (operandByte s 1) (operandByte s 2) (operandByte s 3) (operandByte s 4)
      else rf.get r := by
  cases h with
  | mov hl _ =>
    simp only [eq_movOp_iff_regField hl, RegFile.write_some]
    split_ifs with hr
    · rw [hr, RegFile.get_set_same, assembleImm32_immField]
      rfl
    · exact rf.get_set_other _ hr
  | jmp hl _ =>
    rw [if_neg, RegFile.write_none]
    intro hop
    simp [hop, lookup_movOp] at hl

/-! ### What a step does to the registers, the flags and the trace -/

/-- The whole register file after a step that does not fault (10_state.md R32, R34). -/
theorem State.EndsIn.get_regs {s t : State} (h : s.EndsIn t) (hf : t.run ≠ .faultOutOfBounds) (r : Reg) :
    t.regs.get r =
      if s.eip.toNat < s.cfg.memorySize ∧ s.opcode = movOp r then
        immediateOf s.cfg.imm32Bytes (operandByte s 1) (operandByte s 2) (operandByte s 3) (operandByte s 4)
      else s.regs.get r := by
  cases h with
  | guardExit hg => rw [if_neg (by omega), State.haltEipOutOfRange_regs]
  | miss _ hl =>
    rw [if_neg, State.haltUnimplemented_regs, State.record_regs]
    rintro ⟨-, hop⟩
    simp [hop, lookup_movOp] at hl
  | fault => exact absurd (State.takeOutOfBounds_run ..) hf
  | complete he =>
    simp only [State.testZero_regs, State.applyEffect_regs, State.record_regs, he.get_write, he.guard, true_and]

theorem State.EndsIn.eflags_eq {s t : State} (h : s.EndsIn t) : t.eflags = s.eflags := by
  cases h with
  | guardExit | miss | fault => rfl
  | complete he => simp [he.flagsWe_eq_none]

/-- Only a fetched byte is recorded, and nothing of the trace is lost (10_state.md R49). -/
theorem State.EndsIn.trace_cases {s t : State} (h : s.EndsIn t) :
    t.trace = s.trace ∨ s.eip.toNat < s.cfg.memorySize ∧ t.trace = (s.record s.opcode).trace := by
  cases h with
  | guardExit => exact .inl rfl
  | miss hg | fault hg => exact .inr ⟨hg, rfl⟩
  | complete he => exact .inr ⟨he.guard, by simp⟩

/-! ### A step from the same state with other registers or flags -/

theorem State.testZero_withRegs (s : State) (rf : RegFile) :
    { s with regs := rf }.testZero = { s.testZero with regs := rf } := by
  unfold State.testZero
  split <;> rfl

theorem State.testZero_withEflags (s : State) (f : Word) :
    { s with eflags := f }.testZero = { s.testZero with eflags := f } := by
  unfold State.testZero
  split <;> rfl

theorem State.applyEffect_withEflags (s : State) (f : Word) {e : Effect} (he : e.flagsWe = none) :
    { s with eflags := f }.applyEffect e = { s.applyEffect e with eflags := f } := by
  simp only [State.applyEffect, he, flagsAfter_none]

theorem State.Completes.withRegs {s : State} {e : Effect} (h : s.Completes e) (rf : RegFile) :
    { s with regs := rf }.Completes e := by
  cases h with
  | mov hl hfit => exact .mov hl hfit
  | jmp hl hfit => exact .jmp hl hfit

theorem State.Completes.withEflags {s : State} {e : Effect} (h : s.Completes e) (f : Word) :
    { s with eflags := f }.Completes e := by
  cases h with
  | mov hl hfit => exact .mov hl hfit
  | jmp hl hfit => exact .jmp hl hfit

/-- Other registers at the start of a step change nothing but registers at its end (10_state.md R31). -/
theorem State.EndsIn.withRegs {s t : State} (h : s.EndsIn t) (rf : RegFile) :
    ∃ rf', { s with regs := rf }.EndsIn { t with regs := rf' } := by
  cases h with
  | guardExit hg => exact ⟨rf, .guardExit hg⟩
  | miss hg hl => exact ⟨rf, .miss hg hl⟩
  | fault hg hlen hcut => exact ⟨rf, .fault hg hlen hcut⟩
  | @complete e he =>
    refine ⟨rf.write e.regWe, ?_⟩
    rw [← State.testZero_withRegs]
    exact .complete (he.withRegs rf)

/-- Other flags at the start of a step are carried to its end and change nothing else (10_state.md R40). -/
theorem State.EndsIn.withEflags {s t : State} (h : s.EndsIn t) (f : Word) :
    { s with eflags := f }.EndsIn { t with eflags := f } := by
  cases h with
  | guardExit hg => exact .guardExit hg
  | miss hg hl => exact .miss hg hl
  | fault hg hlen hcut => exact .fault hg hlen hcut
  | @complete e he =>
    rw [← State.testZero_withEflags, ← State.applyEffect_withEflags _ f he.flagsWe_eq_none]
    exact .complete (he.withEflags f)

end Sys2Proof.Machine
end

section
/-! SUPPORT. The invariant (`State.Inv`) is kept by every step (10_state.md R40, R45, R49, R70). -/
namespace Sys2Proof.Machine

theorem State.HaltRecordOk.haltInfo_eq_none {s : State} (h : s.HaltRecordOk) (hr : s.run = .running) :
    s.haltInfo = none := by
  unfold State.HaltRecordOk at h
  rw [hr] at h
  cases hi : s.haltInfo with
  | none => rfl
  | some info => simp [hi] at h

/-- The halt-at-zero test leaves a running state without a record, or the halt at zero that has none. -/
theorem State.haltRecordOk_testZero {s : State} (hr : s.run = .running) (hi : s.haltInfo = none) :
    s.testZero.HaltRecordOk := by
  unfold State.HaltRecordOk
  rw [State.testZero_run, State.testZero_haltInfo, State.testZero_eip]
  by_cases hz : s.eip = 0x00000000#32
  · rw [if_pos hz, if_pos hz]
    exact hz
  · rw [if_neg hz, if_neg hz, hr, hi]
    trivial

theorem State.EndsIn.haltRecordOk {s t : State} (h : s.EndsIn t) (hr : s.run = .running) (hi : s.haltInfo = none) :
    t.HaltRecordOk := by
  cases h with
  | guardExit hg => exact ⟨rfl, hg⟩
  | miss hg hl => exact ⟨rfl, hg, rfl, hl⟩
  | fault hg hlen hcut => exact ⟨rfl, hg, rfl, _, hlen, hcut⟩
  | complete he => exact State.haltRecordOk_testZero hr hi

theorem State.EndsIn.traceOk {s t : State} (h : s.EndsIn t) (hmem : t.mem = s.mem) (hcfg : t.cfg = s.cfg)
    (hs : s.TraceOk) : t.TraceOk := by
  unfold State.TraceOk
  rw [hmem, hcfg]
  obtain htr | ⟨hg, htr⟩ := h.trace_cases
  · rw [htr]
    exact hs
  · rw [htr, State.record_trace, List.forall_mem_append]
    exact ⟨hs, List.forall_mem_singleton.mpr ⟨hg, rfl, rfl⟩⟩

/-- Settles O41. A step leaves memory and `cfg` alone, so the three fields about them carry over; the record, the flags
and the trace follow from the four ways a step ends. -/
theorem stepKeepsTheInvariants : Obligations.StepKeepsTheInvariants := by
  intro s t hinv h
  obtain ⟨hmem, hcfg⟩ := step_keeps_mem_cfg h
  obtain ⟨hr, hends⟩ := (step_eq_next_iff s t).mp h
  exact
    { cfgOk := hcfg ▸ hinv.cfgOk
      memWf := hmem ▸ hinv.memWf
      memBelow := by rw [hmem, hcfg]; exact hinv.memBelow
      haltRecord := hends.haltRecordOk hr (hinv.haltRecord.haltInfo_eq_none hr)
      eflagsZero := fun _ => hends.eflags_eq.trans (hinv.eflagsZero (by simp [hr]))
      traceOk := hends.traceOk hmem hcfg hinv.traceOk }

end Sys2Proof.Machine
end

section
/-! SUPPORT. Frames of the two meanings (10_state.md R34; 40_instruction_cycle.md R151; 41_data_movement.md R173;
42_control_transfer.md R183). -/
namespace Sys2Proof.Machine
open Sys2Proof.Claims

theorem haltFrame_applyEffect_testZero (s : State) (e : Effect) : HaltFrame s (s.applyEffect e).testZero := by
  refine ⟨by simp, ?_⟩
  rw [State.testZero_run, State.testZero_haltInfo, State.testZero_eip]
  by_cases hz : (s.applyEffect e).eip = 0x00000000#32
  · exact .inr ⟨if_pos hz, if_pos hz, hz⟩
  · exact .inl ⟨if_neg hz, if_neg hz⟩

/-- Committing an effect that writes no flags changes, beside `eip`, what its register write says and no more than the
halt at zero. -/
theorem State.commit_effect_frame (s : State) (op : Byte) {e : Effect} (hflags : e.flagsWe = none) :
    (s.commit op (.effect e)).eflags = s.eflags ∧ (s.commit op (.effect e)).trace = s.trace ∧
      HaltFrame s (s.commit op (.effect e)) ∧ ∀ a, (s.commit op (.effect e)).mem.read a = s.mem.read a := by
  refine ⟨by simp [hflags], s.commit_trace op _, haltFrame_applyEffect_testZero s e, fun a => ?_⟩
  rw [State.commit_mem]

/-- Settles O14: where the handler does not fault, its effect record writes the move's register and no flags. -/
theorem movFrame : Obligations.MovFrame := by
  intro r imm s t h hf
  rw [exec_movInstr] at h
  cases h
  obtain ⟨bad, hout⟩ | hout := movHandler_cases r imm s
  · rw [hout] at hf
    exact absurd rfl hf
  · rw [hout]
    refine ⟨fun r' hr' => ?_, s.commit_effect_frame _ rfl⟩
    rw [State.commit_effect, State.testZero_regs, State.applyEffect_regs, RegFile.write_some]
    exact s.regs.get_set_other _ hr'

/-- Settles O17: where the handler does not fault, its effect record writes neither a register nor flags. -/
theorem jmpFrame : Obligations.JmpFrame := by
  intro d s t h hf
  rw [exec_jmpRel8] at h
  cases h
  obtain ⟨bad, hout⟩ | hout := jmpHandler_cases d s
  · rw [hout] at hf
    exact absurd rfl hf
  · rw [hout]
    refine ⟨fun r => ?_, s.commit_effect_frame _ rfl⟩
    rw [State.commit_effect, State.testZero_regs, State.applyEffect_regs, RegFile.write_none]

end Sys2Proof.Machine
end

section
/-! SUPPORT. What a step changes and what it reads (10_state.md R31, R32, R34, R40, R46; 60_exceptions.md R204). -/
namespace Sys2Proof.Machine
open Sys2Proof.Claims

theorem step_of_not_running {s : State} (hr : s.run ≠ .running) : step s = .fault .noStepEnabled :=
  if_pos hr

/-- Settles O23, by induction on the run: its first step would be one from the terminal state itself. -/
theorem terminalStatesArePermanent : Obligations.TerminalStatesArePermanent := by
  intro s hr
  refine ⟨step_of_not_running hr, fun t hreach => ?_⟩
  induction hreach with
  | refl => rfl
  | step _ hstep ih =>
    rw [ih, step_of_not_running hr] at hstep
    cases hstep

/-- Settles O28: of the four ways a step ends only the fault's entry leaves the run state `FaultOutOfBounds`; a commit
keeps it running or halts it at zero. -/
theorem faultAddressIsTheCapacity : Obligations.FaultAddressIsTheCapacity := by
  intro s t h hf
  obtain ⟨hr, hends⟩ := (step_eq_next_iff s t).mp h
  cases hends with
  | guardExit => cases hf
  | miss => cases hf
  | @fault len hg hlen hcut => exact ⟨rfl, len, hlen, hg, hcut⟩
  | complete =>
    rw [State.testZero_run, State.applyEffect_run, State.record_run, hr] at hf
    split at hf <;> cases hf

/-- Settles O30: both clauses read off the register file that a step leaves. -/
theorem stepWritesAtMostItsRegister : Obligations.StepWritesAtMostItsRegister := by
  intro s t h hf r
  have hget := (endsIn_of_step h).get_regs hf r
  constructor
  · intro hne
    by_contra hop
    exact hne (hget.trans (if_neg fun hc => hop hc.2))
  · intro hg hop
    exact hget.trans (if_pos ⟨hg, hop⟩)

/-- Settles O31: the step with the other registers ends in the same state but for the registers, and the value that
`State.EndsIn.get_regs` gives the written one does not mention the register file. -/
theorem stepReadsNoRegister : Obligations.StepReadsNoRegister := by
  intro s t rf h
  obtain ⟨hr, hends⟩ := (step_eq_next_iff s t).mp h
  obtain ⟨rf', hends'⟩ := hends.withRegs rf
  refine ⟨{ t with regs := rf' }, step_of_endsIn hr hends', ⟨rfl, rfl, rfl⟩, fun hf => ⟨rfl, fun r => ?_⟩⟩
  have hget := hends.get_regs hf r
  have hget' := hends'.get_regs hf r
  split_ifs with hc
  · exact (hget'.trans (if_pos hc)).trans (hget.trans (if_pos hc)).symm
  · exact hget'.trans (if_neg hc)

/-- Settles O32: the step with the other flags ends in the same state with those flags, faulted states included. -/
theorem stepLeavesFlagsAlone : Obligations.StepLeavesFlagsAlone := by
  intro s t f h
  obtain ⟨hr, hends⟩ := (step_eq_next_iff s t).mp h
  exact ⟨{ t with eflags := f }, step_of_endsIn hr (hends.withEflags f), ⟨rfl, rfl, rfl⟩,
    fun _ => ⟨hends.eflags_eq, rfl⟩⟩

end Sys2Proof.Machine
end

section
/-! SUPPORT. The checked memory reads (20_memory.md R71, R74). -/
namespace Sys2Proof.Machine

theorem State.memByte_of_le {s : State} {a : Nat} (h : s.cfg.memorySize ≤ a) : s.memByte a = .error a :=
  if_pos h

theorem State.memByte_of_lt {s : State} {a : Nat} (h : a < s.cfg.memorySize) : s.memByte a = .ok (s.mem.read a) :=
  if_neg (Nat.not_le.mpr h)

/-- Settles O7: the two branches of the byte read's check. -/
theorem byteReadChecksCapacity : Obligations.ByteReadChecksCapacity :=
  fun _ _ => ⟨State.memByte_of_le, State.memByte_of_lt⟩

/-- Byte 0 comes out of the sum, and what is left is `2^8` times the sum of the read one address higher. -/
theorem State.memRead_of_le {s : State} {a n : Nat} (h : a + n ≤ s.cfg.memorySize) :
    s.memRead a n = .ok (∑ k ∈ Finset.range n, (s.mem.read (a + k)).toNat * 2 ^ (8 * k)) := by
  induction n generalizing a with
  | zero => rfl
  | succ n ih =>
    have hterm (k : Nat) : (s.mem.read (a + (k + 1))).toNat * 2 ^ (8 * (k + 1)) =
        2 ^ 8 * ((s.mem.read (a + 1 + k)).toNat * 2 ^ (8 * k)) := by
      rw [show a + (k + 1) = a + 1 + k by omega]
      ring
    rw [State.memRead, State.memByte_of_lt (by omega), ih (by omega), Finset.sum_range_succ']
    simp only [hterm, ← Finset.mul_sum, Nat.add_zero, Nat.mul_zero, Nat.pow_zero, Nat.mul_one, Nat.add_comm]

theorem State.memRead_of_lt {s : State} {a n : Nat} (hn : 0 < n) (h : s.cfg.memorySize < a + n) :
    s.memRead a n = .error (max a s.cfg.memorySize) := by
  induction n generalizing a with
  | zero => omega
  | succ n ih =>
    rw [State.memRead]
    by_cases ha : s.cfg.memorySize ≤ a
    · rw [State.memByte_of_le ha, Nat.max_eq_left ha]
    · rw [State.memByte_of_lt (by omega), ih (by omega) (by omega), Nat.max_eq_right (show a + 1 ≤ _ by omega),
        Nat.max_eq_right (show a ≤ _ by omega)]

/-- Settles O8, each clause by induction on the number of bytes. -/
theorem multiByteReadIsLittleEndian : Obligations.MultiByteReadIsLittleEndian :=
  fun _ _ _ hn => ⟨State.memRead_of_le, State.memRead_of_lt hn⟩

end Sys2Proof.Machine
end

section
/-! SUPPORT. A step from the same state with another memory that holds the same instruction (20_memory.md R79;
30_encoding.md R108, R110). -/
namespace Sys2Proof.Machine
open Sys2Proof.Claims

/-- `m` holds the bytes of the instruction at `eip` as the state's memory does; of an unassigned opcode, that byte. -/
def State.SameInstrBytes (s : State) (m : Memory) : Prop :=
  ∀ k, k < (encodedLength s.opcode).getD 1 → { s with mem := m }.byteAt k = s.byteAt k

theorem State.SameInstrBytes.opcode_eq {s : State} {m : Memory} (h : s.SameInstrBytes m) :
    { s with mem := m }.opcode = s.opcode := by
  refine h 0 ?_
  cases hlen : encodedLength s.opcode with
  | none => exact Nat.one_pos
  | some len => obtain ⟨-, rfl⟩ | ⟨-, rfl⟩ := (encodedLength_eq_some_iff ..).mp hlen <;> decide

theorem State.SameInstrBytes.byteAt_eq {s : State} {m : Memory} (h : s.SameInstrBytes m) {len : Nat}
    (hlen : encodedLength s.opcode = some len) {k : Nat} (hk : k < len) :
    { s with mem := m }.byteAt k = s.byteAt k :=
  h k (by rwa [hlen])

theorem State.testZero_withMem (s : State) (m : Memory) :
    { s with mem := m }.testZero = { s.testZero with mem := m } := by
  unfold State.testZero
  split <;> rfl

theorem State.Completes.withMem {s : State} {e : Effect} (h : s.Completes e) {m : Memory} (hm : s.SameInstrBytes m) :
    { s with mem := m }.Completes e := by
  have hop := hm.opcode_eq
  cases h with
  | mov hl hfit =>
    have hbyte {k : Nat} := hm.byteAt_eq ((encodedLength_eq_some_iff ..).mpr (.inl ⟨hl, rfl⟩)) (k := k)
    rw [← hop, ← hbyte (k := 1) (by decide), ← hbyte (k := 2) (by decide), ← hbyte (k := 3) (by decide),
      ← hbyte (k := 4) (by decide)]
    exact .mov (hop ▸ hl) hfit
  | jmp hl hfit =>
    rw [← hm.byteAt_eq ((encodedLength_eq_some_iff ..).mpr (.inr ⟨hl, rfl⟩)) (k := 1) (by decide)]
    exact .jmp (hop ▸ hl) hfit

/-- The other memory is carried to the end of the step and changes nothing else. -/
theorem State.EndsIn.withMem {s t : State} (h : s.EndsIn t) {m : Memory} (hm : s.SameInstrBytes m) :
    { s with mem := m }.EndsIn { t with mem := m } := by
  have hop := hm.opcode_eq
  cases h with
  | guardExit hg => exact .guardExit hg
  | miss hg hl =>
    rw [← hop]
    exact .miss hg (hop ▸ hl)
  | fault hg hlen hcut =>
    rw [← hop]
    exact .fault hg (hop ▸ hlen) hcut
  | complete he =>
    rw [← hop, ← State.testZero_withMem]
    exact .complete (he.withMem hm)

/-- Settles O33: the step with the other memory ends in the same state with that memory, faulted states included. -/
theorem stepReadsOnlyItsOwnBytes : Obligations.StepReadsOnlyItsOwnBytes := by
  intro s t m h hm
  obtain ⟨hr, hends⟩ := (step_eq_next_iff s t).mp h
  exact ⟨{ t with mem := m }, step_of_endsIn hr (hends.withMem hm), ⟨rfl, rfl, rfl⟩, fun _ => rfl⟩

end Sys2Proof.Machine
end

section
/-! SUPPORT. The load (70_reset_and_hazards.md R236, R237) and what runs keep (40_instruction_cycle.md R162). -/
namespace Sys2Proof.Machine

/-! ### The post-load state -/

theorem State.loadImage_some (s : State) (img : List Byte) :
    s.loadImage (some img) =
      if Cfg.loadedPart s.cfg img = [] ∨ s.cfg.loadAddress + (Cfg.loadedPart s.cfg img).length ≤ s.cfg.memorySize then
        .ok { s with mem := s.mem.writeBytes s.cfg.loadAddress (Cfg.loadedPart s.cfg img) }
      else .error (.imageOutOfBounds (max s.cfg.loadAddress s.cfg.memorySize)) := by
  rw [State.loadImage, Memory.bulkWrite_eq]
  split_ifs <;> rfl

/-- A load that succeeds fits, and writes the loaded part into the memory of construction. -/
theorem State.boot_eq_ok_iff (cfg : Cfg) (img : List Byte) (s : State) :
    State.boot cfg (some img) = .ok s ↔
      (Cfg.loadedPart cfg img = [] ∨ cfg.loadAddress + (Cfg.loadedPart cfg img).length ≤ cfg.memorySize) ∧
        s = { State.construct cfg with mem := Memory.writeBytes [] cfg.loadAddress (Cfg.loadedPart cfg img) } := by
  rw [State.boot, State.loadImage_some, State.construct_cfg, State.construct_mem]
  split_ifs with hfit
  · exact ⟨fun h => ⟨hfit, (Except.ok.inj h).symm⟩, fun h => congrArg Except.ok h.2.symm⟩
  · exact iff_of_false nofun fun h => hfit h.1

/-- A machine just constructed, with any memory in the canonical form and within the capacity. -/
theorem State.inv_construct_withMem {cfg : Cfg} {m : Memory} (hcfg : cfg.wellFormed = true) (hwf : m.wf = true)
    (hbelow : Memory.below cfg.memorySize m = true) : State.Inv { State.construct cfg with mem := m } where
  cfgOk := hcfg
  memWf := hwf
  memBelow := hbelow
  haltRecord := trivial
  eflagsZero := fun _ => rfl
  traceOk := fun _ he => absurd he List.not_mem_nil

theorem State.inv_of_boot {cfg : Cfg} {img : List Byte} {s : State} (hcfg : cfg.wellFormed = true)
    (h : State.boot cfg (some img) = .ok s) : s.Inv := by
  obtain ⟨hfit, rfl⟩ := (State.boot_eq_ok_iff ..).mp h
  exact State.inv_construct_withMem hcfg (Memory.wf_writeBytes Memory.wf_nil _ _) (Memory.below_writeBytes rfl hfit)

theorem State.read_of_boot {cfg : Cfg} {img : List Byte} {s : State} (h : State.boot cfg (some img) = .ok s)
    (a : Nat) : s.mem.read a =
      if cfg.loadAddress ≤ a then ((Cfg.loadedPart cfg img)[a - cfg.loadAddress]?).getD 0x00#8 else 0x00#8 := by
  obtain ⟨-, rfl⟩ := (State.boot_eq_ok_iff ..).mp h
  exact Memory.read_writeBytes Memory.wf_nil ..

/-! ### Runs -/

/-- What holds at the start of a run and is kept by every step holds all along the run. -/
theorem Reaches.keeps {P : State → Prop} (hstep : ∀ t u, P t → Machine.step t = .next u → P u) {s t : State} (hs : P s)
    (h : Reaches s t) : P t := by
  induction h with
  | refl => exact hs
  | step _ hnext ih => exact hstep _ _ ih hnext

theorem Reaches.inv {s t : State} (h : Reaches s t) (hs : s.Inv) : t.Inv :=
  h.keeps stepKeepsTheInvariants hs

theorem Reaches.mem_eq {s t : State} (h : Reaches s t) : t.mem = s.mem :=
  h.keeps (P := fun u => u.mem = s.mem) (fun _ _ ht hnext => (step_keeps_mem_cfg hnext).1.trans ht) rfl

/-- Settles O42: the run keeps the post-load state's invariant and its memory. -/
theorem runsReadWhatTheLoaderLeft : Obligations.RunsReadWhatTheLoaderLeft := by
  intro cfg img s t hcfg hboot hreach
  refine ⟨hreach.inv (State.inv_of_boot hcfg hboot), fun a => ?_⟩
  rw [hreach.mem_eq]
  exact State.read_of_boot hboot a

end Sys2Proof.Machine
end

section
/-! SUPPORT. The dispatch table, the decoder and the encoder against each other (30_encoding.md R101 to R110). -/
namespace Sys2Proof

/-! ### The dispatch table by the opcode's value (30_encoding.md R104) -/

/-- The order of bytes is the order of their values, so the table's own rule says this already. -/
theorem lookup_eq_mov_iff_toNat (op : Byte) :
    lookup op = some .movR32Imm32 ↔ 0xB8 ≤ op.toNat ∧ op.toNat ≤ 0xBF :=
  lookup_eq_mov_iff op

theorem lookup_eq_jmp_iff_toNat (op : Byte) : lookup op = some .jmpRel8 ↔ op.toNat = 0xEB :=
  (lookup_eq_jmp_iff op).trans BitVec.toNat_inj.symm

theorem lookup_eq_none_iff_toNat (op : Byte) :
    lookup op = none ↔ ¬(0xB8 ≤ op.toNat ∧ op.toNat ≤ 0xBF) ∧ op.toNat ≠ 0xEB :=
  (lookup_eq_none_iff op).trans (and_congr_right' BitVec.toNat_inj.not.symm)

theorem encodedLength_eq_ite (op : Byte) :
    encodedLength op =
      if 0xB8 ≤ op.toNat ∧ op.toNat ≤ 0xBF then some 5 else if op.toNat = 0xEB then some 2 else none := by
  simp only [← lookup_eq_mov_iff_toNat, ← lookup_eq_jmp_iff_toNat, encodedLength]
  rcases lookup op with _ | ⟨⟨⟩⟩ <;> rfl

/-! ### The register field (30_encoding.md R105) -/

@[simp] theorem Reg.index_ofIndex (k : Fin 8) : (Reg.ofIndex k).index = k := by
  revert k
  decide

theorem regField_index_val (op : Byte) : (regField op).index.val = (op.extractLsb' 0 3).toNat := by
  rw [regField, Reg.index_ofIndex, BitVec.val_toFin]

/-! ### The encoder -/

theorem encodeImm_immField (b1 b2 b3 b4 : Byte) : encodeImm (immField b1 b2 b3 b4) = [b1, b2, b3, b4] := by
  obtain ⟨h1, h2, h3, h4⟩ := byteOf_immField b1 b2 b3 b4
  rw [encodeImm, h1, h2, h3, h4]

theorem encode_movInstr_length (r : Reg) (imm : Word) : (encode (movInstr r imm)).length = 5 := by
  rw [encode_movInstr]
  rfl

/-! ### The decoder on a move -/

/-- A move that is not cut off decodes, and the four bytes it takes are its immediate's encoding. -/
theorem decode_mov_of_le {op : Byte} (hl : lookup op = some .movR32Imm32) {rest : List Byte} (hr : 4 ≤ rest.length) :
    ∃ imm, rest = encodeImm imm ++ rest.drop 4 ∧
      decode (op :: rest) = .ok (movInstr (regField op) imm, rest.drop 4) := by
  obtain _ | ⟨b1, _ | ⟨b2, _ | ⟨b3, _ | ⟨b4, rest⟩⟩⟩⟩ := rest
  case cons.cons.cons.cons =>
    exact ⟨immField b1 b2 b3 b4, by rw [encodeImm_immField]; rfl, decode_mov hl ..⟩
  all_goals simp at hr

/-! ### Everything the decoder can do -/

/-- A byte list with a first byte is rejected by name, cut off, or split after the one instruction it begins with. -/
theorem decode_cons_cases (op : Byte) (rest : List Byte) :
    (lookup op = none ∧ decode (op :: rest) = .error (.unassigned op)) ∨
      ∃ len, encodedLength op = some len ∧
        ((rest.length + 1 < len ∧ decode (op :: rest) = .error (.cutOff op)) ∨
          (len ≤ rest.length + 1 ∧ ∃ i, decode (op :: rest) = .ok (i, rest.drop (len - 1)) ∧
            (encode i).length = len ∧ op :: rest = encode i ++ rest.drop (len - 1))) := by
  rcases hl : lookup op with _ | ⟨⟨⟩⟩
  case none => exact .inl ⟨rfl, decode_unassigned hl rest⟩
  case some.movR32Imm32 =>
    refine .inr ⟨5, by rw [encodedLength, hl], ?_⟩
    by_cases hcut : rest.length < 4
    · exact .inl ⟨by omega, decode_mov_cutOff hl hcut⟩
    · obtain ⟨imm, hrest, hdec⟩ := decode_mov_of_le hl (not_lt.mp hcut)
      refine .inr ⟨by omega, _, hdec, encode_movInstr_length .., ?_⟩
      rw [encode_movInstr, movOpcode_regField hl]
      exact congrArg (op :: ·) hrest
  case some.jmpRel8 =>
    refine .inr ⟨2, by rw [encodedLength, hl], ?_⟩
    cases rest with
    | nil => exact .inl ⟨by decide, decode_jmp_cutOff hl⟩
    | cons d rest =>
      refine .inr ⟨by simp, .jmpRel8 d, decode_jmp hl d rest, rfl, ?_⟩
      rw [(lookup_eq_jmp_iff op).mp hl]
      rfl

/-! ### The statements -/

/-- Settles O2: a move decodes by its opcode's register field and its reassembled immediate, the jump as it stands. -/
theorem decodeOfEncode : Obligations.DecodeOfEncode := by
  intro i rest
  obtain ⟨r, imm, rfl⟩ | ⟨d, rfl⟩ := Machine.Instr.cases_mov_jmp i
  · calc decode (encode (movInstr r imm) ++ rest)
      _ = decode (movOpcode r :: byteOf imm 0 :: byteOf imm 1 :: byteOf imm 2 :: byteOf imm 3 :: rest) := by
        rw [encode_movInstr]; rfl
      _ = .ok (movInstr r imm, rest) := by
        rw [decode_mov (lookup_movOpcode r), regField_movOpcode, immField_byteOf]
  · exact decode_jmp rfl d rest

/-- Settles O3: of the decoder's answers only the last is an instruction, and it comes with the split of the list. -/
theorem encodeOfDecode : Obligations.EncodeOfDecode := by
  intro bytes i rest h
  cases bytes with
  | nil => cases h
  | cons op tail =>
    obtain ⟨-, hdec⟩ | ⟨len, -, ⟨-, hdec⟩ | ⟨-, j, hdec, -, hsplit⟩⟩ := decode_cons_cases op tail
    case inl | inr.inl =>
      rw [hdec] at h
      cases h
    case inr.inr =>
      rw [hdec] at h
      cases h
      exact hsplit

/-- Settles O4. The last clause: an assigned opcode decodes or is cut off, and neither is the rejection by name. -/
theorem dispatchTableContents : Obligations.DispatchTableContents := by
  intro op rest
  refine ⟨lookup_eq_mov_iff_toNat op, lookup_eq_jmp_iff_toNat op, lookup_eq_none_iff_toNat op,
    fun h => ?_, fun hl => decode_unassigned hl rest⟩
  obtain ⟨hl, -⟩ | ⟨len, -, ⟨-, hdec⟩ | ⟨-, i, hdec, -⟩⟩ := decode_cons_cases op rest
  case inl => exact hl
  case inr.inl | inr.inr =>
    rw [hdec] at h
    cases h

/-- Settles O5: an opcode with a length is not rejected by name, and which of the two other answers the decoder gives
is decided by the number of bytes. -/
theorem lengthFromOpcodeAlone : Obligations.LengthFromOpcodeAlone := by
  intro op rest
  refine ⟨encodedLength_eq_ite op, fun len hlen => ?_⟩
  obtain ⟨hl, -⟩ | ⟨len', hlen', hdec⟩ := decode_cons_cases op rest
  · rw [encodedLength, hl] at hlen
    cases hlen
  · obtain rfl : len' = len := Option.some.inj (hlen'.symm.trans hlen)
    obtain ⟨hcut, hdec⟩ | ⟨hfit, i, hdec, hi, -⟩ := hdec
    · exact ⟨fun _ => hdec, fun hfit => absurd hfit (by omega)⟩
    · exact ⟨fun hcut => absurd hcut (by omega), fun _ => ⟨i, hdec, hi⟩⟩

/-- Settles O6: `0xB8` is a multiple of 8, so the low three bits of such an opcode are its distance from `0xB8`. -/
theorem registerFieldOfMove : Obligations.RegisterFieldOfMove := by
  refine ⟨by decide, fun op b1 b2 b3 b4 rest hlo hhi => ?_⟩
  have hl := (lookup_eq_mov_iff_toNat op).mpr ⟨hlo, hhi⟩
  have hindex := regField_index_val op
  refine ⟨regField op, immField b1 b2 b3 b4, decode_mov hl .., ?_, hindex, immField_toNat ..⟩
  rw [hindex, BitVec.extractLsb'_toNat]
  omega

/-- Settles O1: the first four words are the encodings of what they decode to; 0x90 has no entry in the table. -/
theorem specWordsDecode : Obligations.SpecWordsDecode :=
  ⟨decodeOfEncode (.movEax 0x0000002A#32) [], decodeOfEncode (.movEcx 0x12345678#32) [],
    decodeOfEncode (.movEdi 0x80000000#32) [0x90#8], decodeOfEncode (.jmpRel8 0xFE#8) [], decode_unassigned rfl _⟩

end Sys2Proof
end

section
/-! SUPPORT. The step on a move's opcode, and the width of what it writes (30_encoding.md R106; 41_data_movement.md
R172, R174, R175). -/
namespace Sys2Proof.Machine
open Sys2Proof.Claims

/-! ### The claims' own spelling of the step's parts -/

theorem haltIfZero_eq_testZero (s : State) : haltIfZero s = s.testZero := rfl

theorem traced_eq_record (s : State) : traced s = s.record s.opcode := rfl

theorem ofNat_toNat_add_five_mod (w : Word) : BitVec.ofNat 32 ((w.toNat + 5) % 2 ^ 32) = w + 5#32 := by
  apply BitVec.eq_of_toNat_eq
  simp [BitVec.toNat_add]

theorem faultedFrom_takeOutOfBounds (s : State) (bad : Nat) (op : Byte) :
    FaultedFrom s (s.takeOutOfBounds bad op) bad op :=
  ⟨rfl, rfl, rfl, rfl, fun _ => rfl⟩

/-- Settles O21: where the four immediate bytes fit the step ends in the move's commit, otherwise in the fault. -/
theorem stepOnMovOpcode : Obligations.StepOnMovOpcode := by
  intro s r hr hg hop
  change s.opcode = movOp r at hop
  have hl : lookup s.opcode = some .movR32Imm32 := by rw [hop, lookup_movOp]
  constructor
  · intro hfit
    rw [step_of_endsIn hr (.complete (.mov hl hfit)), haltIfZero_eq_testZero, traced_eq_record,
      ofNat_toNat_add_five_mod, assembleImm32_immField, ← (eq_movOp_iff_regField hl r).mp hop]
    rfl
  · intro hcut
    have hlen : encodedLength s.opcode = some 5 := (encodedLength_eq_some_iff ..).mpr (.inl ⟨hl, rfl⟩)
    refine ⟨_, step_of_endsIn hr (.fault hg hlen (by omega)), ?_⟩
    rw [traced_eq_record, ← hop]
    exact faultedFrom_takeOutOfBounds ..

/-- Three assembled bytes leave bits 31:24 zero (30_encoding.md R106). -/
theorem immediateOf_three_lt (b1 b2 b3 b4 : Byte) : (immediateOf .three b1 b2 b3 b4).toNat < 2 ^ 24 := by
  rw [← assembleImm32_immField, assembleImm32, BitVec.toNat_setWidth]
  exact (Nat.mod_le _ _).trans_lt (BitVec.isLt _)

/-- Settles O34: a register after the step holds what it held before, or an assembled immediate. -/
theorem threeByteModeKeepsTopBytesZero : Obligations.ThreeByteModeKeepsTopBytesZero := by
  intro s t hthree hregs h hf r
  rw [(endsIn_of_step h).get_regs hf r, hthree]
  split_ifs
  · exact immediateOf_three_lt ..
  · exact hregs r

end Sys2Proof.Machine
end

section
/-! SUPPORT. The decoder's read ports relative to `eip` (40_instruction_cycle.md R134 to R136). -/
namespace Sys2Proof.Machine
open Sys2Proof.Claims

/-! ### Byte reads -/

theorem State.readU8_of_le {s : State} {k : Nat} (h : s.cfg.memorySize ≤ s.eip.toNat + k) :
    s.readU8 k = .error (s.eip.toNat + k) :=
  State.memByte_of_le h

theorem State.readU8_of_lt {s : State} {k : Nat} (h : s.eip.toNat + k < s.cfg.memorySize) :
    s.readU8 k = .ok (s.byteAt k) :=
  State.memByte_of_lt h

theorem State.readI8_of_le {s : State} {k : Nat} (h : s.cfg.memorySize ≤ s.eip.toNat + k) :
    s.readI8 k = .error (s.eip.toNat + k) := by
  rw [State.readI8, State.readU8_of_le h]

theorem State.readI8_of_lt {s : State} {k : Nat} (h : s.eip.toNat + k < s.cfg.memorySize) :
    s.readI8 k = .ok (sext32 (s.byteAt k)) := by
  rw [State.readI8, State.readU8_of_lt h]

/-- Sign extension keeps the signed value, and R135 gives it from the byte. -/
theorem sext32_toInt (b : Byte) :
    (sext32 b).toInt = if 0x80 ≤ b.toNat then (b.toNat : Int) - 256 else b.toNat := by
  rw [sext32, BitVec.toInt_signExtend_of_le (by decide), BitVec.toInt_eq_toNat_cond]
  split_ifs <;> omega

/-- Settles O10: each clause is the check's branch, and the value is the sign-extended byte's. -/
theorem displacementReadIsSigned : Obligations.DisplacementReadIsSigned := fun _ _ =>
  ⟨fun h => ⟨State.readU8_of_le h, State.readI8_of_le h⟩,
    fun h => ⟨State.readU8_of_lt h, _, State.readI8_of_lt h, sext32_toInt _⟩⟩

/-! ### The immediate read -/

theorem State.readU32_of_lt {s : State} {k : Nat} (h : s.cfg.memorySize < s.eip.toNat + k + 4) :
    s.readU32 k = .error (max (s.eip.toNat + k) s.cfg.memorySize) := by
  rw [State.readU32, firstOutOfRange_eq, if_neg (by omega)]

theorem State.readU32_of_le {s : State} {k : Nat} (h : s.eip.toNat + k + 4 ≤ s.cfg.memorySize) :
    s.readU32 k = .ok (immediateOf s.cfg.imm32Bytes (s.byteAt k) (s.byteAt (k + 1)) (s.byteAt (k + 2))
      (s.byteAt (k + 3))) := by
  rw [State.readU32, firstOutOfRange_eq, if_pos (.inr h)]
  cases s.cfg.imm32Bytes <;> rfl

theorem immediateOf_four_toNat (b1 b2 b3 b4 : Byte) :
    (immediateOf .four b1 b2 b3 b4).toNat =
      b1.toNat + b2.toNat * 2 ^ 8 + b3.toNat * 2 ^ 16 + b4.toNat * 2 ^ 24 := by
  rw [← assembleImm32_immField]
  exact immField_toNat b1 b2 b3 b4

/-- The fourth byte contributes a multiple of `2^24`, which the low three bytes leave out. -/
theorem immediateOf_three_toNat (b1 b2 b3 b4 : Byte) :
    (immediateOf .three b1 b2 b3 b4).toNat = b1.toNat + b2.toNat * 2 ^ 8 + b3.toNat * 2 ^ 16 := by
  have hfield := immField_toNat b1 b2 b3 b4
  rw [← assembleImm32_immField, assembleImm32, BitVec.toNat_setWidth, BitVec.extractLsb'_toNat, hfield]
  omega

/-- Settles O9: the check alone decides between the clauses, `IMM32_BYTES` only what is assembled. -/
theorem immediateReadChecksFourBytes : Obligations.ImmediateReadChecksFourBytes := by
  refine fun s k => ⟨State.readU32_of_lt, fun h => ⟨_, State.readU32_of_le h, fun hn => ?_, fun hn => ?_⟩⟩
  · rw [hn]
    exact immediateOf_four_toNat ..
  · rw [hn]
    exact immediateOf_three_toNat ..

end Sys2Proof.Machine
end

section
/-! SUPPORT. The two meanings where their operand bytes are in memory (41_data_movement.md R172; 42_control_transfer.md
R182), and the step on the jump's opcode. -/
namespace Sys2Proof.Machine
open Sys2Proof.Claims

/-- Taking the low three bytes is masking with `0x00FFFFFF` (30_encoding.md R106; 41_data_movement.md R175). -/
theorem assembleImm32_eq_movedValue (n : Imm32Bytes) (imm : Word) : assembleImm32 n imm = movedValue n imm := by
  cases n with
  | four => rfl
  | three =>
    apply BitVec.eq_of_toNat_eq
    rw [assembleImm32, movedValue, BitVec.toNat_setWidth, BitVec.extractLsb'_toNat, BitVec.toNat_and]
    change _ = imm.toNat &&& (2 ^ 24 - 1)
    rw [Nat.and_two_pow_sub_one_eq_mod]
    simp only [Nat.shiftRight_zero]
    omega

/-- The eight moves at once: R172's register write and `eip +₃₂ 5`, then the halt-at-zero test. -/
theorem exec_movInstr_of_fits (r : Reg) (imm : Word) {s : State} (h : s.eip.toNat + 4 < s.cfg.memorySize) :
    exec (movInstr r imm) s = .next (haltIfZero
      { s with regs := s.regs.set r (movedValue s.cfg.imm32Bytes imm)
               eip := BitVec.ofNat 32 ((s.eip.toNat + 5) % 2 ^ 32) }) := by
  rw [exec_movInstr, movHandler_effect r imm h, State.commit_effect, assembleImm32_eq_movedValue,
    ← ofNat_toNat_add_five_mod]
  rfl

/-- Settles O12: one rule for the eight moves, at each register. -/
theorem movWritesRegisterAndAdvances : Obligations.MovWritesRegisterAndAdvances := by
  intro imm s h
  have hexec (r : Reg) := exec_movInstr_of_fits r imm h
  exact ⟨hexec .eax, hexec .ecx, hexec .edx, hexec .ebx, hexec .esp, hexec .ebp, hexec .esi, hexec .edi⟩

/-- Adding words wraps as the claims' integer sum does. -/
theorem jumpTarget_eq (eip : Word) (d : Byte) : jumpTarget eip d = eip + sext32 d + 2#32 := by
  rw [jumpTarget, BitVec.ofInt_add, BitVec.ofInt_add, BitVec.ofInt_natCast, BitVec.ofNat_toNat, BitVec.setWidth_eq]
  rfl

/-- Settles O15: the jump's commit, with no check but the one of its own byte. -/
theorem jmpSetsTarget : Obligations.JmpSetsTarget := by
  intro d s h
  rw [exec_jmpRel8, jmpHandler_effect d h, State.commit_effect, ← jumpTarget_eq]
  rfl

/-- Settles O22: where the displacement byte fits the step ends in the jump's commit, otherwise in the fault. -/
theorem stepOnJmpOpcode : Obligations.StepOnJmpOpcode := by
  intro s hr hg hop
  have hl : lookup s.opcode = some .jmpRel8 := (lookup_eq_jmp_iff _).mpr hop
  constructor
  · intro hfit
    rw [step_of_endsIn hr (.complete (.jmp hl hfit)), ← jumpTarget_eq]
    rfl
  · intro hcut
    have hlen : encodedLength s.opcode = some 2 := (encodedLength_eq_some_iff ..).mpr (.inr ⟨hl, rfl⟩)
    refine ⟨_, step_of_endsIn hr (.fault hg hlen (by omega)), ?_⟩
    rw [traced_eq_record, ← hop]
    exact faultedFrom_takeOutOfBounds ..

end Sys2Proof.Machine
end

section
/-! SUPPORT. How a step ends: totality, the trace event and the order of priority (40_instruction_cycle.md R131, R142,
R146, R152, R161; 60_exceptions.md R208). -/
namespace Sys2Proof.Machine
open Sys2Proof.Claims

/-- Settles O18: the claims' five bytes are the fetch window. -/
theorem stepRunsTheDecodedInstruction : Obligations.StepRunsTheDecodedInstruction := by
  intro s i rest hr hg hdec
  have hfetch : s.fetchInstr = some i := by
    change decode s.fetchWindow = _ at hdec
    rw [State.fetchInstr, hdec]
  rw [step_of_guard hr hg, hfetch, traced_eq_record]

/-- Settles O19: no step leaves a state that is not running, and the guard exit is the step's first branch. -/
theorem stepGuardExit : Obligations.StepGuardExit := by
  refine fun s => ⟨fun hr t h => hr (step_cases h).1, fun hr hg => ?_⟩
  rw [step_of_guardExit hr hg]
  rfl

/-- Settles O20: the miss is decided by the opcode byte, wherever it lies. -/
theorem stepLookupMiss : Obligations.StepLookupMiss := by
  intro s hr hg hl
  rw [step_of_miss hr hg hl, traced_eq_record]
  rfl

/-! ### Totality -/

/-- Past the guard and the lookup, a handler completes or its operand bytes pass the top of memory. -/
theorem State.exists_endsIn (s : State) : ∃ t, s.EndsIn t := by
  by_cases hg : s.cfg.memorySize ≤ s.eip.toNat
  · exact ⟨_, .guardExit hg⟩
  rw [not_le] at hg
  rcases hl : lookup s.opcode with _ | ⟨⟨⟩⟩
  case none => exact ⟨_, .miss hg hl⟩
  case some.movR32Imm32 =>
    by_cases hfit : s.eip.toNat + 4 < s.cfg.memorySize
    · exact ⟨_, .complete (.mov hl hfit)⟩
    · exact ⟨_, .fault hg ((encodedLength_eq_some_iff ..).mpr (.inl ⟨hl, rfl⟩)) (by omega)⟩
  case some.jmpRel8 =>
    by_cases hfit : s.eip.toNat + 1 < s.cfg.memorySize
    · exact ⟨_, .complete (.jmp hl hfit)⟩
    · exact ⟨_, .fault hg ((encodedLength_eq_some_iff ..).mpr (.inr ⟨hl, rfl⟩)) (by omega)⟩

theorem exists_step_eq_next_iff (s : State) : (∃ t, step s = .next t) ↔ s.run = .running := by
  simp only [step_eq_next_iff, exists_and_left, s.exists_endsIn, and_true]

/-- Settles O24: a running state has a next one, and any other answers the fault `noStepEnabled`. -/
theorem stepIsTotalWhileRunning : Obligations.StepIsTotalWhileRunning := by
  refine fun s => ⟨exists_step_eq_next_iff s, fun why h => ?_⟩
  by_cases hr : s.run = .running
  · obtain ⟨t, ht⟩ := (exists_step_eq_next_iff s).mpr hr
    rw [ht] at h
    cases h
  · rw [step_of_not_running hr] at h
    cases h

/-! ### The trace event -/

theorem State.EndsIn.trace_eq {s t : State} (h : s.EndsIn t) :
    t.trace = if s.eip.toNat < s.cfg.memorySize then (s.record s.opcode).trace else s.trace := by
  cases h with
  | guardExit hg => rw [if_neg (by omega), State.haltEipOutOfRange_trace]
  | miss hg => rw [if_pos hg, State.haltUnimplemented_trace]
  | fault hg => rw [if_pos hg, State.takeOutOfBounds_trace]
  | complete he => rw [if_pos he.guard, State.testZero_trace, State.applyEffect_trace]

/-- Settles O26: the trace a step ends in does not depend on which of the ways past the guard it takes. -/
theorem stepAppendsOneEvent : Obligations.StepAppendsOneEvent := by
  intro s t h
  have htrace := (endsIn_of_step h).trace_eq
  exact ⟨fun hg => htrace.trans (if_pos hg), fun hg => htrace.trans (if_neg (Nat.not_lt.mpr hg))⟩

/-! ### The order of priority -/

/-- The instruction at `eip` has an operand byte at or beyond the capacity (60_exceptions.md R204). -/
def State.CutOff (s : State) : Prop :=
  ∃ len, encodedLength s.opcode = some len ∧ s.cfg.memorySize < s.eip.toNat + len

theorem State.CutOff.lookup_ne_none {s : State} (h : s.CutOff) : lookup s.opcode ≠ none := by
  obtain ⟨len, hlen, -⟩ := h
  obtain ⟨hl, -⟩ | ⟨hl, -⟩ := (encodedLength_eq_some_iff ..).mp hlen <;> simp [hl]

theorem State.Completes.lookup_ne_none {s : State} {e : Effect} (h : s.Completes e) : lookup s.opcode ≠ none := by
  cases h with
  | mov hl | jmp hl => simp [hl]

theorem State.Completes.not_cutOff {s : State} {e : Effect} (h : s.Completes e) : ¬s.CutOff := by
  rintro ⟨len, hlen, hcut⟩
  cases h with
  | mov hl hfit =>
    simp only [encodedLength, hl, Option.some.injEq] at hlen
    omega
  | jmp hl hfit =>
    simp only [encodedLength, hl, Option.some.injEq] at hlen
    omega

/-- Settles O27: each way a step ends has its own run state, and its conditions exclude the other ways'. -/
theorem stepOutcomeByPriority : Obligations.StepOutcomeByPriority := by
  intro s t h
  obtain ⟨hr, hends⟩ := (step_eq_next_iff s t).mp h
  change (_ ↔ ¬s.eip.toNat < s.cfg.memorySize) ∧ (_ ↔ _ ∧ lookup s.opcode = none) ∧ (_ ↔ _ ∧ s.CutOff) ∧
    (_ ↔ _ ∧ lookup s.opcode ≠ none ∧ ¬s.CutOff ∧ _) ∧ (_ ↔ _ ∧ lookup s.opcode ≠ none ∧ ¬s.CutOff ∧ _)
  cases hends with
  | guardExit hg => simp [hg.not_gt]
  | miss hg hl =>
    have hcut : ¬s.CutOff := fun hc => hc.lookup_ne_none hl
    simp [hg, hl, hcut]
  | fault hg hlen hover =>
    have hcut : s.CutOff := ⟨_, hlen, hover⟩
    simp [hg, hcut, hcut.lookup_ne_none]
  | @complete e he =>
    by_cases hz : e.nextEip = 0x00000000#32 <;>
      simp [State.testZero_run, hr, he.guard, he.lookup_ne_none, he.not_cutOff, hz]

end Sys2Proof.Machine
end

section
/-! SUPPORT. The machine's step against the step function of 40_instruction_cycle.md R160. -/
namespace Sys2Proof.Machine
open Sys2Proof.Claims

/-! ### The handlers through the decoder's ports (R150; 41_data_movement.md R172; 42_control_transfer.md R182) -/

/-- `0xB8` is a multiple of 8, so subtracting it leaves the low three bits alone. -/
theorem regField_sub_0xB8 (op : Byte) : regField (op - 0xB8#8) = regField op := by
  revert op
  decide

/-- `read_u32(1)` makes the operand check of the move's meaning and assembles the decoder's field. -/
theorem State.handlerIn_movR32Imm32 {s : State} (hg : s.eip.toNat < s.cfg.memorySize) (op : Byte) :
    (s.handlerIn op).movR32Imm32 =
      movHandler (regField op) (immField (s.byteAt 1) (s.byteAt 2) (s.byteAt 3) (s.byteAt 4)) s := by
  by_cases hfit : s.eip.toNat + 4 < s.cfg.memorySize
  · have hread : (s.handlerIn op).readU32 1 = .ok _ := State.readU32_of_le (by omega)
    rw [HandlerIn.movR32Imm32, hread, movHandler_effect _ _ hfit, assembleImm32_immField, ← regField_sub_0xB8 op]
    rfl
  · have hread : (s.handlerIn op).readU32 1 = .error _ := State.readU32_of_lt (by omega)
    rw [HandlerIn.movR32Imm32, hread, movHandler_fault _ _ hg (by omega), Nat.max_eq_right hg]

/-- `read_i8(1)` makes the operand check of the jump's meaning. -/
theorem State.handlerIn_jmpRel8 {s : State} (hg : s.eip.toNat < s.cfg.memorySize) (op : Byte) :
    (s.handlerIn op).jmpRel8 = jmpHandler (s.byteAt 1) s := by
  by_cases hfit : s.eip.toNat + 1 < s.cfg.memorySize
  · have hread : (s.handlerIn op).readI8 1 = .ok _ := State.readI8_of_lt hfit
    rw [HandlerIn.jmpRel8, hread, jmpHandler_effect _ hfit]
    rfl
  · have hread : (s.handlerIn op).readI8 1 = .error _ := State.readI8_of_le (not_lt.mp hfit)
    rw [HandlerIn.jmpRel8, hread, jmpHandler_fault _ hg (not_lt.mp hfit)]
    exact congrArg HandlerOut.fault (Nat.le_antisymm hg (not_lt.mp hfit))

/-! ### The cycle, branch by branch -/

theorem State.cycle_of_guardExit {s : State} (hg : s.cfg.memorySize ≤ s.eip.toNat) :
    s.cycle = s.haltEipOutOfRange :=
  if_pos hg

theorem State.read_eip (s : State) : s.mem.read s.eip.toNat = s.opcode := rfl

theorem State.cycle_of_miss {s : State} (hg : s.eip.toNat < s.cfg.memorySize) (hl : lookup s.opcode = none) :
    s.cycle = (s.record s.opcode).haltUnimplemented s.opcode := by
  rw [State.cycle, if_neg (Nat.not_le.mpr hg), State.record]
  simp only [State.read_eip, hl]
  rfl

/-- Where there is no record, clearing it is leaving it. -/
theorem State.testZero_of_haltInfo_eq_none {s : State} (hi : s.haltInfo = none) :
    s.testZero = if s.eip = 0x00000000#32 then { s with run := .haltedAtZero } else s := by
  rw [State.testZero, State.halt, ← hi]

/-- The premise is for the halt at zero, where R160 leaves the record alone and the machine clears it. -/
theorem State.cycle_of_hit {s : State} (hi : s.haltInfo = none) (hg : s.eip.toNat < s.cfg.memorySize)
    {sel : HandlerId} (hl : lookup s.opcode = some sel) :
    s.cycle = (s.record s.opcode).commit s.opcode ((s.handlerIn s.opcode).run sel) := by
  rw [State.cycle, if_neg (Nat.not_le.mpr hg), State.record]
  simp only [State.read_eip, hl]
  cases (s.handlerIn s.opcode).run sel with
  | fault bad => rfl
  | effect e =>
    rw [State.commit_effect, State.testZero_of_haltInfo_eq_none]
    · rfl
    · exact hi

/-- Settles O25, branch by branch: the two step functions make the same tests in the same order. -/
theorem stepIsTheSpecsCycle : Obligations.StepIsTheSpecsCycle := by
  intro s hr hi
  by_cases hg : s.cfg.memorySize ≤ s.eip.toNat
  · rw [step_of_guardExit hr hg, State.cycle_of_guardExit hg]
  rw [not_le] at hg
  rcases hl : lookup s.opcode with _ | ⟨⟨⟩⟩
  case none => rw [step_of_miss hr hg hl, State.cycle_of_miss hg hl]
  case some.movR32Imm32 =>
    rw [step_of_mov hr hg hl, State.cycle_of_hit hi hg hl, HandlerIn.run, State.handlerIn_movR32Imm32 hg]
  case some.jmpRel8 =>
    rw [step_of_jmp hr hg hl, State.cycle_of_hit hi hg hl, HandlerIn.run, State.handlerIn_jmpRel8 hg]

end Sys2Proof.Machine
end

section
/-! SUPPORT. A move cut off by the top of memory (41_data_movement.md R174; 60_exceptions.md R203). -/
namespace Sys2Proof.Machine
open Sys2Proof.Claims

/-- Settles O13: the handler faults at the capacity, and committing a fault is the fatal fault's entry. -/
theorem movCutOffFaults : Obligations.MovCutOffFaults := by
  intro r imm s hg hcut
  refine ⟨_, exec_movInstr r imm s, ?_⟩
  rw [movHandler_fault r imm hg hcut, State.commit_fault, movOp_eq_movOpcode]
  exact faultedFrom_takeOutOfBounds ..

end Sys2Proof.Machine
end

section
/-! SUPPORT. The jump as the last byte of memory (42_control_transfer.md R184; 60_exceptions.md R203). -/
namespace Sys2Proof.Machine
open Sys2Proof.Claims

/-- Settles O16: the displacement byte would lie at the capacity, so the handler faults there, and committing a fault is
the fatal fault's entry. -/
theorem jmpCutOffFaults : Obligations.JmpCutOffFaults := by
  intro d s hg hcut
  refine ⟨_, exec_jmpRel8 d s, ?_⟩
  rw [jmpHandler_fault d hg hcut, State.commit_fault]
  exact faultedFrom_takeOutOfBounds ..

end Sys2Proof.Machine
end

section
/-! SUPPORT. The load and the post-load state (70_reset_and_hazards.md R231, R234, R236, R237), and the step from an
entry point that the image does not cover (R238). -/
namespace Sys2Proof.Machine

/-! ### The loaded part of an image -/

theorem Cfg.loadedPart_prefix (cfg : Cfg) (img : List Byte) : Cfg.loadedPart cfg img <+: img := by
  unfold Cfg.loadedPart
  split
  · exact List.prefix_rfl
  · exact List.take_prefix ..

theorem Cfg.length_loadedPart (cfg : Cfg) (img : List Byte) :
    (Cfg.loadedPart cfg img).length = cfg.loadLimit.elim img.length (min img.length) := by
  unfold Cfg.loadedPart
  cases cfg.loadLimit with
  | none => rfl
  | some m => exact List.length_take.trans (min_comm ..)

/-! ### Memory after bytes are written -/

theorem Memory.read_writeBytes_inside {m : Memory} (h : m.wf = true) (a : Nat) {k : Nat} {bytes : List Byte}
    (hk : k < bytes.length) : (m.writeBytes a bytes).read (a + k) = bytes[k] := by
  rw [Memory.read_writeBytes h, if_pos (Nat.le_add_right a k), Nat.add_sub_cancel_left, List.getElem?_eq_getElem hk,
    Option.getD_some]

theorem Memory.read_writeBytes_outside {m : Memory} (h : m.wf = true) {a b : Nat} {bytes : List Byte}
    (hb : b < a ∨ a + bytes.length ≤ b) : (m.writeBytes a bytes).read b = m.read b := by
  rw [Memory.read_writeBytes h]
  split_ifs with hab
  · rw [List.getElem?_eq_none (by omega), Option.getD_none]
  · rfl

/-- Settles O35: what does not fit is refused whole, and what fits is the image's first bytes, written from
`load_address` on. -/
theorem loadPlacesThePrefixOrFails : Obligations.LoadPlacesThePrefixOrFails := by
  intro s hwf
  refine ⟨rfl, fun img => ?_⟩
  intro n len base
  have hlen : (Cfg.loadedPart s.cfg img).length = len := by
    unfold len
    rw [Cfg.length_loadedPart]
    cases s.cfg.loadLimit <;> rfl
  have hfits : Cfg.loadedPart s.cfg img = [] ∨ base + (Cfg.loadedPart s.cfg img).length ≤ s.cfg.memorySize ↔
      len = 0 ∨ base + len ≤ s.cfg.memorySize := by
    rw [← hlen, List.length_eq_zero_iff]
  have hload := s.loadImage_some img
  constructor
  · intro hbig
    exact hload.trans (if_neg (hfits.not.mpr (by omega)))
  · intro hfit
    refine ⟨_, hload.trans (if_pos (hfits.mpr hfit)), Memory.wf_writeBytes hwf .., fun k hk => ?_, fun a ha => ?_⟩
    · rw [← hlen] at hk
      rw [Memory.read_writeBytes_inside hwf _ hk]
      exact (List.prefix_iff_getElem?.mp (Cfg.loadedPart_prefix s.cfg img) k hk).symm
    · rw [← hlen] at ha
      exact Memory.read_writeBytes_outside hwf ha

/-! ### The post-load state -/

theorem RegFile.get_construct (esp : Word) (r : Reg) :
    (RegFile.construct esp).get r = if r = .esp then esp else 0x00000000#32 := by
  cases r <;> rfl

/-- Settles O36: the load changes nothing but memory, so everything else is as constructed. -/
theorem postLoadState : Obligations.PostLoadState := by
  intro cfg img s hboot
  have hmem := State.read_of_boot hboot
  obtain ⟨-, rfl⟩ := (State.boot_eq_ok_iff ..).mp hboot
  exact ⟨RegFile.get_construct cfg.initialStackPointer, rfl, rfl, rfl, rfl, rfl, rfl, hmem⟩

theorem State.read_of_boot_outside {cfg : Cfg} {img : List Byte} {s : State} (h : State.boot cfg (some img) = .ok s)
    {a : Nat} (ha : a < cfg.loadAddress ∨ cfg.loadAddress + (Cfg.loadedPart cfg img).length ≤ a) :
    s.mem.read a = 0x00#8 := by
  obtain ⟨-, rfl⟩ := (State.boot_eq_ok_iff ..).mp h
  exact Memory.read_writeBytes_outside Memory.wf_nil ha

/-- Settles O37: a byte the image does not cover is 0x00, which has no entry in the dispatch table. -/
theorem entryOutsideTheImage : Obligations.EntryOutsideTheImage := by
  intro cfg img s hboot
  obtain ⟨-, heip, -, hrun, -, htrace, hcfg, -⟩ := postLoadState cfg img s hboot
  rw [← heip, ← hcfg]
  constructor
  · intro hg hout
    have hop : s.mem.read s.eip.toNat = 0x00#8 := State.read_of_boot_outside hboot (hcfg ▸ hout)
    rw [stepLookupMiss s hrun hg (by rw [hop]; rfl), Claims.traced, hop, htrace]
    rfl
  · exact (stepGuardExit s).2 hrun

/-! ### The invariant after a load and at reset -/

/-- Settles O40: an image that cannot be read gives no state, and the readable ones keep to the capacity. -/
theorem loadedMachinesMeetTheInvariants : Obligations.LoadedMachinesMeetTheInvariants := by
  intro cfg img s hcfg hboot
  cases img with
  | none => cases hboot
  | some img => exact State.inv_of_boot hcfg hboot

/-- Settles O39: the reset state is the post-load state of the empty image (log entry 3). -/
theorem resetMeetsTheInvariants : Obligations.ResetMeetsTheInvariants :=
  State.inv_of_boot (cfg := resetConfig) (img := []) rfl rfl

end Sys2Proof.Machine
end

section
/-! SUPPORT. What the host's operations on a session accept and refuse (70_reset_and_hazards.md R238, R239; log
entry 4). -/
namespace Sys2Proof.Machine

theorem Session.step_of_constructed {x : Session} (h : x.phase = .constructed) :
    x.step = .refused .stepBeforeLoad := by
  rw [Session.step, h]

/-- Past the load, the host is answered with the machine's own step or refused one. -/
theorem Session.step_of_loaded {x : Session} (h : x.phase ≠ .constructed) :
    (∃ s, Machine.step x.state = .next s ∧ x.step = .accepted { phase := .stepping, state := s }) ∨
      (∀ s, Machine.step x.state ≠ .next s) ∧ x.step = .refused .stepAfterTerminal := by
  unfold Session.step
  split
  · exact absurd ‹_› h
  all_goals
    cases Machine.step x.state with
    | next s => exact .inl ⟨s, rfl, rfl⟩
    | fault _ | refused _ => exact .inr ⟨nofun, rfl⟩

theorem Session.load_of_constructed {x : Session} (h : x.phase = .constructed) (img : Option (List Byte)) :
    (∃ s, x.state.loadImage img = .ok s ∧ x.load img = .accepted { phase := .loaded, state := s }) ∨
      ∃ cause, x.load img = .loadFailed cause := by
  rw [Session.load, h]
  cases x.state.loadImage img with
  | ok s => exact .inl ⟨s, rfl, rfl⟩
  | error cause => exact .inr ⟨cause, rfl⟩

theorem Session.load_of_loaded {x : Session} (h : x.phase ≠ .constructed) (img : Option (List Byte)) :
    x.load img = .refused .lateLoad := by
  unfold Session.load
  split
  · exact absurd ‹_› h
  · rfl
  · rfl

theorem Session.step_eq_accepted {x x' : Session} (h : x.step = .accepted x') :
    x.phase ≠ .constructed ∧ Machine.step x.state = .next x'.state ∧ x'.phase = .stepping := by
  have hphase : x.phase ≠ .constructed := by
    intro hc
    rw [Session.step_of_constructed hc] at h
    cases h
  obtain ⟨s, hstep, hx⟩ | ⟨-, hx⟩ := Session.step_of_loaded hphase <;> rw [hx] at h <;> cases h
  exact ⟨hphase, hstep, rfl⟩

theorem Session.load_eq_accepted {x x' : Session} {img : Option (List Byte)} (h : x.load img = .accepted x') :
    x.phase = .constructed ∧ x.state.loadImage img = .ok x'.state ∧ x'.phase = .loaded := by
  by_cases hphase : x.phase = .constructed
  · obtain ⟨s, hload, hx⟩ | ⟨cause, hx⟩ := Session.load_of_constructed hphase img <;> rw [hx] at h <;> cases h
    exact ⟨hphase, hload, rfl⟩
  · rw [Session.load_of_loaded hphase] at h
    cases h

/-- Settles O38: no accepted operation leaves the phase `constructed`, the one phase in which a load is accepted and no
step is. Past it, the machine has a step exactly while it runs. -/
theorem hostProtocol : Obligations.HostProtocol := by
  intro x x'
  refine ⟨fun h => ?_, fun img h => ?_, Session.step_of_constructed, fun hphase hr => ?_, fun hphase hr => ?_⟩
  · obtain ⟨hphase, hstep, hx'⟩ := Session.step_eq_accepted h
    exact ⟨hphase, (step_cases hstep).1, hstep, Session.load_of_loaded (by simp [hx'])⟩
  · obtain ⟨hphase, hload, hx'⟩ := Session.load_eq_accepted h
    exact ⟨hphase, hload, Session.load_of_loaded (by simp [hx'])⟩
  · obtain ⟨s, hstep, -⟩ | ⟨-, hx⟩ := Session.step_of_loaded hphase
    · exact absurd (step_cases hstep).1 hr
    · exact hx
  · obtain ⟨s, -, hx⟩ | ⟨hstuck, -⟩ := Session.step_of_loaded hphase
    · exact ⟨_, hx⟩
    · obtain ⟨s, hstep⟩ := (exists_step_eq_next_iff x.state).mpr hr
      exact absurd hstep (hstuck s)

end Sys2Proof.Machine
end

section
/-! Memories in canonical form that read alike are the same list (20_memory.md, log entry 8). -/
namespace Sys2Proof.Machine

theorem Memory.wfFrom_cons {lo a : Nat} {v : Byte} {m : Memory} :
    Memory.wfFrom lo ((a, v) :: m) = true ↔ lo ≤ a ∧ v ≠ Memory.unlisted ∧ Memory.wfFrom (a + 1) m = true := by
  simp [Memory.wfFrom, and_assoc]

@[simp] theorem Memory.read_cons_self (a : Nat) (v : Byte) (m : Memory) : Memory.read ((a, v) :: m) a = v :=
  if_pos rfl

/-- Whatever a read shows lies at or above the lowest listed address. -/
theorem Memory.head_le_of_read_ne_unlisted {lo a b : Nat} {v : Byte} {m : Memory}
    (h : Memory.wfFrom lo ((a, v) :: m) = true) (hb : Memory.read ((a, v) :: m) b ≠ Memory.unlisted) : a ≤ b := by
  by_contra hlt
  have hfrom : Memory.wfFrom a ((a, v) :: m) = true := Memory.wfFrom_cons.mpr ⟨le_rfl, (Memory.wfFrom_cons.mp h).2⟩
  exact hb (Memory.read_below_wfFrom hfrom (Nat.lt_of_not_le hlt))

/-- A canonical list with an entry does not read as the empty memory: its first entry shows. -/
theorem Memory.eq_nil_of_read_eq_unlisted {lo : Nat} {m : Memory} (h : Memory.wfFrom lo m = true)
    (hread : ∀ a, m.read a = Memory.unlisted) : m = [] := by
  cases m with
  | nil => rfl
  | cons c m =>
    obtain ⟨a, v⟩ := c
    obtain ⟨-, hv, -⟩ := Memory.wfFrom_cons.mp h
    exact absurd ((Memory.read_cons_self a v m).symm.trans (hread a)) hv

/-- Canonical lists that read alike begin with the same entry: each first address is the lowest that shows. -/
theorem Memory.head_eq_of_read_eq {lo lo' a a' : Nat} {v v' : Byte} {m m' : Memory}
    (h : Memory.wfFrom lo ((a, v) :: m) = true) (h' : Memory.wfFrom lo' ((a', v') :: m') = true)
    (hread : ∀ b, Memory.read ((a, v) :: m) b = Memory.read ((a', v') :: m') b) : a = a' ∧ v = v' := by
  obtain ⟨-, hv, -⟩ := Memory.wfFrom_cons.mp h
  obtain ⟨-, hv', -⟩ := Memory.wfFrom_cons.mp h'
  have hle : a ≤ a' := Memory.head_le_of_read_ne_unlisted h (by rwa [hread, Memory.read_cons_self])
  have hge : a' ≤ a := Memory.head_le_of_read_ne_unlisted h' (by rwa [← hread, Memory.read_cons_self])
  obtain rfl := le_antisymm hle hge
  exact ⟨rfl, by simpa using hread a⟩

/-- Behind a common first entry, canonical lists still read alike: neither tail lists its address. -/
theorem Memory.read_tail_eq_of_read_eq {a : Nat} {v : Byte} {m m' : Memory} (h : Memory.wfFrom (a + 1) m = true)
    (h' : Memory.wfFrom (a + 1) m' = true)
    (hread : ∀ b, Memory.read ((a, v) :: m) b = Memory.read ((a, v) :: m') b) (b : Nat) : m.read b = m'.read b := by
  by_cases hb : a = b
  · rw [Memory.read_below_wfFrom h (by omega), Memory.read_below_wfFrom h' (by omega)]
  · simpa only [Memory.read_cons, if_neg hb] using hread b

theorem Memory.eq_of_read_eq {lo lo' : Nat} {m m' : Memory} (h : Memory.wfFrom lo m = true)
    (h' : Memory.wfFrom lo' m' = true) (hread : ∀ a, m.read a = m'.read a) : m = m' := by
  induction m generalizing m' lo lo' with
  | nil => exact (Memory.eq_nil_of_read_eq_unlisted h' fun a => (hread a).symm).symm
  | cons c m ih =>
    obtain ⟨a, v⟩ := c
    cases m' with
    | nil => exact Memory.eq_nil_of_read_eq_unlisted h hread
    | cons c' m' =>
      obtain ⟨a', v'⟩ := c'
      obtain ⟨rfl, rfl⟩ := Memory.head_eq_of_read_eq h h' hread
      obtain ⟨-, -, htail⟩ := Memory.wfFrom_cons.mp h
      obtain ⟨-, -, htail'⟩ := Memory.wfFrom_cons.mp h'
      rw [ih htail htail' (Memory.read_tail_eq_of_read_eq htail htail' hread)]

/-- Settles O11, by induction on one list: the two agree on their first entry, and their tails read alike. -/
theorem canonicalMemoriesAreEqual : Obligations.CanonicalMemoriesAreEqual :=
  fun _ _ => Memory.eq_of_read_eq

end Sys2Proof.Machine
end
